-- ==== Sys2Proof/Word.lean ====
section
/-! DEFINITION. The word types of the parity matrix codec: register words and payload bytes. -/

namespace Sys2Proof

/-- A register word: 32 bits, bit 0 the least significant (R9, R10). -/
abbrev Word := BitVec 32

/-- A payload row: one byte, 8 columns (R7, R37). -/
abbrev Byte := BitVec 8

end Sys2Proof
end

