-- ==== Sys2Proof/Syntax.lean ====
section
/-! DEFINITION. The commands of the block, one constructor per row of spec/opcode_table.json (R13, R104). -/

namespace Sys2Proof

/-- A command: what one write of the CMD register asks the block to do. Every operand but FLIP's index is implicit (R102). -/
inductive Instr where
  /-- NOP, OP 0x0 (R190). -/
  | nop
  /-- BUILD, OP 0x1 (R123). -/
  | build
  /-- FLIP, OP 0x2: `arg` is the flat index of the payload bit to invert, ARG of the word (R102, R150). -/
  | flip (arg : Nat)
  /-- NOISE, OP 0x3 (R151). -/
  | noise
  /-- CHECK, OP 0x4 (R124). -/
  | check
  /-- CORRECT, OP 0x5 (R170). -/
  | correct
  /-- RUN, OP 0x6 (R191). -/
  | run
deriving DecidableEq, Repr

end Sys2Proof
end

