-- ==== Sys2Proof/WellFormed.lean ====
section
/-! DEFINITION. Which commands have an encoding. -/

namespace Sys2Proof

/-- The command has a CMD word. Only FLIP can fail: its index must fit ARG's 11 bits, "an assembler refuses `flip F` with
`F > 2047`, since such an `F` has no encoding" (R102, R109). -/
def Instr.wellFormed : Instr → Bool
  | .nop => true
  | .build => true
  | .flip arg => decide (arg ≤ 2047)
  | .noise => true
  | .check => true
  | .correct => true
  | .run => true

end Sys2Proof
end

