-- ==== Sys2Proof/Decode.lean ====
section
/-! DEFINITION. From a CMD word to a command and back (30_encoding.md). -/

namespace Sys2Proof

/-- Why a CMD word names no command. -/
inductive DecodeError where
  /-- OP is 0x7 to 0xF, a reserved opcode (R105). The block answers it with ILLEGAL_COMMAND (R218). -/
  | reservedOpcode (op : Nat)
deriving DecidableEq, Repr

/-- OP = `v[3:0]`, which alone picks the command (R100, R101). -/
def opField (v : Word) : Nat := (v.extractLsb' 0 4).toNat

/-- ARG = `zext_11(v[26:16])`, unsigned, neither scaled nor extended (R100, R102). -/
def argField (v : Word) : Nat := (v.extractLsb' 16 11).toNat

/-- The command a CMD word encodes, or the reserved opcode it holds. Bits [15:4] and [31:27], and ARG for every command but
FLIP, are ignored (R103, R104, R105). -/
def decode (v : Word) : Except DecodeError Instr :=
  match opField v with
  | 0x0 => .ok .nop
  | 0x1 => .ok .build
  | 0x2 => .ok (.flip (argField v))
  | 0x3 => .ok .noise
  | 0x4 => .ok .check
  | 0x5 => .ok .correct
  | 0x6 => .ok .run
  | op => .error (.reservedOpcode op)

/-- The OP of a command (R104). -/
def Instr.opcode : Instr → BitVec 4
  | .nop => 0x0#4
  | .build => 0x1#4
  | .flip _ => 0x2#4
  | .noise => 0x3#4
  | .check => 0x4#4
  | .correct => 0x5#4
  | .run => 0x6#4

/-- The ARG of a command: FLIP's index, 0 for the commands that ignore it (R102, R103). -/
def Instr.argument : Instr → BitVec 11
  | .flip arg => BitVec.ofNat 11 arg
  | .nop => 0#11
  | .build => 0#11
  | .noise => 0#11
  | .check => 0#11
  | .correct => 0#11
  | .run => 0#11

/-- The CMD word of a command, every ignored bit 0, as the pseudo-instructions write it (R100, R109). -/
def encode (i : Instr) : Word := 0#5 ++ i.argument ++ 0#12 ++ i.opcode

/-- What the decoder reads from a word whose low `nbits` bits are those of `w` and whose other bits are 0. A command is one
32-bit bus word (R101), so there is no byte order to lay out (R75). -/
def decodeTableWord (nbits w : Nat) : Option Instr :=
  match decode (BitVec.ofNat 32 (w % 2 ^ nbits)) with
  | .ok i => some i
  | .error _ => none

end Sys2Proof
end

