-- ==== Sys2Proof/Config.lean ====
section
/-! DEFINITION. What an implementation of the block fixes, and the values the spec leaves to an agent outside it. -/

namespace Sys2Proof

/-- `COLS`, the row width, fixed at 8 (R7). -/
def Config.cols : Nat := 8

/-- `MAX_ROWS` of the reference configuration (R8). `State.reset` uses it; every other definition reads `State.maxRows`.
DESIGN CHOICE for `State.reset`, log 1: unsafe only if a claim about `State.reset` is read as one for every capacity. -/
def Config.referenceMaxRows : Nat := 256

/-- The open base address of the register window in the host's address map (R70, D35). No value is known for it and
nothing in the block reads it: the block sees only the offset (log 10, safe). Its width is the model's choice (log 19). -/
opaque Config.pmcBase : Word

/-- The host's address of a byte offset of the window (R70, R225). Whether it reaches the block is the platform's decode
(R74). DESIGN CHOICE, log 19: the spec gives a host address no width; here base and address have 32 bits and the sum wraps. Safe:
no step reads it. -/
def Config.hostAddress (off : BitVec 11) : Word := Config.pmcBase + off.zeroExtend 32

/-- The noise source's answer to its draw number `k`, where `State.noise` gives none in advance: a free value (R152; log 2,
safe: nothing is known of it; no distribution either, log 16). -/
opaque Config.noiseDraw : Nat → BitVec 16

end Sys2Proof
end

