-- ==== Sys2Proof/Machine/State.lean ====
section
/-! DEFINITION. The state of the block, of the noise source and of the host's port; the reset state. -/

namespace Sys2Proof.Machine

/-- The payload buffer: (row, byte) pairs, rows strictly rising, no row listed that holds what an unlisted row reads as
(10_state.md R37, log 7). -/
abbrev Memory := List Host.Cell

/-- The noise source, an agent outside the block (R14, R152). `queue` holds the answers it is known to give next, in order;
`drawn` counts the draws it has answered. Past the queue the answer is `Config.noiseDraw` of the draw's number. The MODEL's
own form of the oracle (log 2). -/
structure Noise where
  queue : List (BitVec 16)
  drawn : Nat
deriving DecidableEq, Repr

/-- One input of the block: a host access to the register window at a byte offset, always a whole 32-bit word (R71), or the
platform's reset (R240). -/
inductive Event where
  /-- `MemRead(off, 4)` (R72). -/
  | read (off : Word)
  /-- `MemWrite(off, 4, v)` (R73). -/
  | write (off v : Word)
  /-- The reset event (R240). -/
  | reset
deriving DecidableEq, Repr

/-- The registers of the window (R43). -/
inductive Register where
  | param
  | ctrl
  | len
  | cmd
  | status
  | syncnt
  | loc
  | cpar
  | colsyn
  | pclen
  | noiseP
  /-- Word `j` of the RPAR window. -/
  | rpar (j : Nat)
  /-- Word `j` of the ROWSYN window. -/
  | rowsyn (j : Nat)
  /-- Row `i` of the PAYLOAD window. -/
  | payload (i : Nat)
  /-- Any other offset of the window (R44). -/
  | reserved
deriving DecidableEq, Repr

/-- The parity modes that BUILD, CHECK and RUN accept (R24). MODE itself is a register field of 2 bits. -/
inductive ParityMode where
  | even
  | odd
deriving DecidableEq, Repr

/-- The errors a command can raise, each a result of the command and no stop of the machine (R210, R220). -/
inductive CommandError where
  | framing
  | unsupportedMode
  | consistency
  | length
  | index
  | noSyndrome
  | illegalCommand
deriving DecidableEq, Repr

/-- Everything the spec gives the block (R20), its capacity (R8), and, last, the two agents it meets: the noise source and the
host's port. -/
structure State where
  /-- `MAX_ROWS`, the capacity in rows: a parameter, written by nothing (R8, R22; log 1). -/
  maxRows : Nat
  /-- `CTRL.MODE` (R23, R24). -/
  mode : BitVec 2
  /-- `LEN`, the payload length in bits (R25). -/
  len : BitVec 12
  /-- `PAYLOAD[0..MAX_ROWS-1]` (R33, R37). -/
  payload : Memory
  /-- `RPAR[r]` at bit `r` (R35; log 8). -/
  rpar : BitVec 256
  /-- `CPAR`, column `k` at bit `7 - k` (R30). -/
  cpar : BitVec 8
  /-- `PCLEN`, the stored parity code's length in bits (R32). -/
  pclen : BitVec 9
  /-- `NOISE_P`, the noise probability times 65536 (R34). -/
  noiseP : BitVec 16
  /-- `ROWSYN[r]` at bit `r` (R36; log 8). -/
  rowsyn : BitVec 256
  /-- `COLSYN`, column `k` at bit `7 - k` (R31). -/
  colsyn : BitVec 8
  /-- `STATUS.SYNVALID` (R40). -/
  synvalid : Bool
  /-- `SYNCNT.NCORR` (R41). -/
  ncorr : BitVec 4
  /-- `STATUS.ERR` (R42, R210). -/
  err : BitVec 4
  /-- The noise source, outside the block (R152; log 2). -/
  noise : Noise
  /-- The inputs still to come, oldest first (R71, R240; log 4). -/
  events : List Event
  /-- The words that the host's reads have returned, oldest first (R72; log 13). -/
  readData : List Word
deriving DecidableEq, Repr

/-- What the next input asks for: an access that is complete with the state `t`, or a CMD write whose command runs on `t`. -/
inductive Access where
  | done (t : State)
  | command (i : Instr) (t : State)
deriving DecidableEq, Repr

/-- The reasons a step can stop with a fault: there is none. Every error is a result code of a command that completes (R216,
R220), every register access completes (R44), and between accesses the block is idle (R228). Safe: log 11. -/
inductive Fault : Type
deriving DecidableEq, Repr

/-- The reasons a step can refuse. -/
inductive Refusal where
  /-- Raised by an arm of `exec` for a command without a meaning. Every command has its meaning, so nothing raises it. Safe: a
  refused command completes no step. -/
  | notModelled (mnemonic : String)
deriving DecidableEq, Repr

/-- The block of capacity `maxRows` right after reset (R241), beside a noise source that has answered no draw and a host that
has asked for nothing (log 3, 4, 13). -/
def State.resetWith (maxRows : Nat) : State where
  maxRows := maxRows
  mode := 0#2
  len := 0#12
  payload := []
  rpar := 0#256
  cpar := 0x00#8
  pclen := 0#9
  noiseP := 0#16
  rowsyn := 0#256
  colsyn := 0x00#8
  synvalid := false
  ncorr := 0#4
  err := 0#4
  noise := { queue := [], drawn := 0 }
  events := []
  readData := []

/-- The machine right after reset, in the reference configuration (R8, R241; log 1). -/
def State.reset : State := State.resetWith Config.referenceMaxRows

end Sys2Proof.Machine
end

