-- ==== Sys2Proof/Machine/Ops.lean ====
section
/-! DEFINITION. The named operations: bit masks, the payload memory, the noise source, how a command ends (with success or
with an error), and the reset event. -/

namespace Sys2Proof.Machine

/-- The `w`-bit mask whose bit `i` is `f i` for `i < n`, and 0 from bit `n` on. -/
def bitsBelow (w : Nat) : Nat → (Nat → Bool) → BitVec w
  | 0, _ => 0#w
  | n + 1, f => bitsBelow w n f ||| (if f n then BitVec.twoPow w n else 0#w)

/-! ## The payload memory -/

/-- What an unlisted row reads as: the reset value of every `PAYLOAD[i]` (R37, R241; log 7). -/
def Memory.unlisted : Byte := 0x00#8

/-- Row `a` of the payload (R37). -/
def Memory.read : Memory → Nat → Byte
  | [], _ => Memory.unlisted
  | (b, w) :: m, a => if a = b then w else Memory.read m a

/-- Store `v` in row `a`, in canonical form: a row that holds what an unlisted one reads as is not listed (log 7). -/
def Memory.write : Memory → Nat → Byte → Memory
  | [], a, v => if v = Memory.unlisted then [] else [(a, v)]
  | (b, w) :: m, a, v =>
    if a < b then (if v = Memory.unlisted then (b, w) :: m else (a, v) :: (b, w) :: m)
    else if a = b then (if v = Memory.unlisted then m else (a, v) :: m)
    else (b, w) :: Memory.write m a v

/-- The canonical form: rows strictly rising, none that holds what an unlisted row reads as. -/
def Memory.wf : Memory → Bool
  | [] => true
  | (a, v) :: m => decide (v ≠ Memory.unlisted) && m.all (fun c => decide (a < c.1)) && Memory.wf m

/-- Every listed row lies below `n`. -/
def Memory.within (m : Memory) (n : Nat) : Bool := m.all fun c => decide (c.1 < n)

/-- `pbit(f)`: payload bit `f`, column `f & 7` of row `f >> 3`, column 0 the most significant bit of the byte (R11, R33). -/
def pbit (m : Memory) (f : Nat) : Bool := (m.read (f / 8)).getLsbD (7 - f % 8)

/-- `pbit(f) <- 1 XOR pbit(f)` (R11). -/
def flipBit (m : Memory) (f : Nat) : Memory :=
  m.write (f / 8) (m.read (f / 8) ^^^ BitVec.twoPow 8 (7 - f % 8))

/-! ## The noise source (R152) -/

/-- The `j`-th of the draws still to come (R152; log 2). -/
def Noise.answer (ν : Noise) (j : Nat) : BitVec 16 := ν.queue.getD j (Config.noiseDraw (ν.drawn + j))

/-- The noise source after `k` more draws. -/
def Noise.advance (ν : Noise) (k : Nat) : Noise := { queue := ν.queue.drop k, drawn := ν.drawn + k }

/-- `Draw()`: one 16-bit answer, and the noise source after it (R12, R152). -/
def Noise.draw (ν : Noise) : BitVec 16 × Noise := (ν.answer 0, ν.advance 1)

/-! ## How a command ends -/

/-- The code of an error in `STATUS.ERR` (R210). -/
def CommandError.code : CommandError → BitVec 4
  | .framing => 1#4
  | .unsupportedMode => 2#4
  | .consistency => 3#4
  | .length => 4#4
  | .index => 5#4
  | .noSyndrome => 6#4
  | .illegalCommand => 7#4

/-- `raise E`: the command ends with the code of `E` in ERR and no other state changes (R12, R216). This is the whole of taking
an error: no state is saved, no mode changes and no control is transferred; and there is no return from one (R220). -/
def raiseError (e : CommandError) (s : State) : State := { s with err := e.code }

/-- `S.ERR <- 0`: the command ends with success (R42, R210). -/
def succeed (s : State) : State := { s with err := 0#4 }

/-- End the command that started in `s`: with the state it computed and OK, or with the error it raised and nothing else
changed (R216). Neither way stops the machine (R220, R221). -/
def complete (s : State) : Except CommandError State → Host.Outcome State Fault Refusal
  | .ok t => .next (succeed t)
  | .error e => .next (raiseError e s)

/-! ## Reset -/

/-- The reset event (R240): every field of R20 to its reset value (R241). The capacity is a constant (R22), and neither the
noise source (R243) nor the host's port is reached (log 5). -/
def resetEvent (s : State) : State :=
  { State.resetWith s.maxRows with noise := s.noise, events := s.events, readData := s.readData }

end Sys2Proof.Machine
end

