-- ==== Sys2Proof/Machine/Flags.lean ====
section
/-! DEFINITION. The derived syndrome views, pure functions of ROWSYN and COLSYN, and the flags and counts read from them
(10_state.md R39, R46). -/

namespace Sys2Proof.Machine

/-- `rows_list`: the flagged rows, ascending (R39). -/
def State.rowsList (s : State) : List Nat := (List.range s.maxRows).filter fun i => s.rowsyn.getLsbD i

/-- `cols_list`: the flagged columns, ascending; column `k` is bit `7 - k` of COLSYN (R31, R39). -/
def State.colsList (s : State) : List Nat := (List.range 8).filter fun k => s.colsyn.getLsbD (7 - k)

/-- `NROWERR` (R39). -/
def State.nRowErr (s : State) : Nat := s.rowsList.length

/-- `NCOLERR` (R39). -/
def State.nColErr (s : State) : Nat := s.colsList.length

/-- `SINGLE`: exactly one flagged row and one flagged column (R27, R39). -/
def State.single (s : State) : Bool := decide (s.nRowErr = 1) && decide (s.nColErr = 1)

/-- `LOCVALID`: at least one flagged row and one flagged column (R27, R39). -/
def State.locValid (s : State) : Bool := decide (1 ≤ s.nRowErr) && decide (1 ≤ s.nColErr)

/-- `npairs` (R39). -/
def State.npairs (s : State) : Nat := min s.nRowErr s.nColErr

/-- `pairs`: the `j`-th flagged row with the `j`-th flagged column (R39). -/
def State.pairs (s : State) : List (Nat × Nat) := s.rowsList.zip s.colsList

/-- `LOC_ROW`: the row of the first pair, 0 when there is none (R29). -/
def State.locRow (s : State) : Nat := if s.locValid then s.rowsList.headD 0 else 0

/-- `LOC_COL`: the column of the first pair, 0 when there is none (R29). -/
def State.locCol (s : State) : Nat := if s.locValid then s.colsList.headD 0 else 0

/-- `LOC_BIT`: the flat index of the first pair, 0 when there is none (R29). -/
def State.locBit (s : State) : Nat := if s.locValid then 8 * s.locRow + s.locCol else 0

end Sys2Proof.Machine
end

