-- ==== Sys2Proof/Machine/Registers.lean ====
section
/-! DEFINITION. The register window: which register an offset names, what it reads as, what a write does (10_state.md,
20_memory.md). -/

namespace Sys2Proof.Machine

/-- The register at a byte offset; the block sees `off & 0x7FC` (R43, R72, R74; log 9). -/
def registerAt (off : Word) : Register :=
  let w := (off &&& 0x7FC#32).toNat
  match w with
  | 0x000 => .param
  | 0x004 => .ctrl
  | 0x008 => .len
  | 0x00C => .cmd
  | 0x010 => .status
  | 0x014 => .syncnt
  | 0x018 => .loc
  | 0x01C => .cpar
  | 0x020 => .colsyn
  | 0x024 => .pclen
  | 0x028 => .noiseP
  | _ =>
    if 0x100 ≤ w ∧ w < 0x120 then .rpar ((w - 0x100) / 4)
    else if 0x200 ≤ w ∧ w < 0x220 then .rowsyn ((w - 0x200) / 4)
    else if 0x400 ≤ w then .payload ((w - 0x400) / 4)
    else .reserved

/-- Word `j` of a row mask: row `32*j + b` at bit `b`, rows at and above `MAX_ROWS` reading 0 (R35, R36, R75). -/
def rowWord (maxRows : Nat) (rows : BitVec 256) (j : Nat) : Word :=
  bitsBelow 32 32 fun b => decide (32 * j + b < maxRows) && rows.getLsbD (32 * j + b)

/-- A row mask after a write of `v` to its word `j`, rows at and above `MAX_ROWS` ignoring it (R35, R75). -/
def writeRowWord (maxRows : Nat) (rows : BitVec 256) (j : Nat) (v : Word) : BitVec 256 :=
  bitsBelow 256 maxRows fun r => if r / 32 = j then v.getLsbD (r % 32) else rows.getLsbD r

/-- STATUS: LOCVALID, SINGLE, SYNVALID and ERR from bit 6 down (R27). -/
def State.statusWord (s : State) : Word :=
  0#25 ++ BitVec.ofBool s.locValid ++ BitVec.ofBool s.single ++ BitVec.ofBool s.synvalid ++ s.err

/-- SYNCNT: NCORR in [27:24], NCOLERR in [19:16], NROWERR in [8:0] (R28). -/
def State.syncntWord (s : State) : Word :=
  0#4 ++ s.ncorr ++ 0#4 ++ BitVec.ofNat 4 s.nColErr ++ 0#7 ++ BitVec.ofNat 9 s.nRowErr

/-- LOC: LOC_BIT in [26:16], LOC_COL in [10:8], LOC_ROW in [7:0] (R29). -/
def State.locWord (s : State) : Word :=
  0#5 ++ BitVec.ofNat 11 s.locBit ++ 0#5 ++ BitVec.ofNat 3 s.locCol ++ BitVec.ofNat 8 s.locRow

/-- PARAM: `{0x00, COLS, MAX_ROWS}` (R22, R241). -/
def State.paramWord (s : State) : Word := 0x00#8 ++ BitVec.ofNat 8 Config.cols ++ BitVec.ofNat 16 s.maxRows

/-- The word a read of a register returns; reserved bits, reserved offsets and CMD read 0 (R26, R43, R44). -/
def readRegister (s : State) : Register → Word
  | .param => s.paramWord
  | .ctrl => s.mode.zeroExtend 32
  | .len => s.len.zeroExtend 32
  | .cmd => 0#32
  | .status => s.statusWord
  | .syncnt => s.syncntWord
  | .loc => s.locWord
  | .cpar => s.cpar.zeroExtend 32
  | .colsyn => s.colsyn.zeroExtend 32
  | .pclen => s.pclen.zeroExtend 32
  | .noiseP => s.noiseP.zeroExtend 32
  | .rpar j => rowWord s.maxRows s.rpar j
  | .rowsyn j => rowWord s.maxRows s.rowsyn j
  | .payload i => if i < s.maxRows then (s.payload.read i).zeroExtend 32 else 0#32
  | .reserved => 0#32

/-- The state after a write of `v` to a register. A framed-unit register clears SYNVALID, whether or not its value changes
(R40); NOISE_P does not (R34, against a sentence of R244: log 18); reserved bits, read-only registers, reserved offsets and rows at and above `MAX_ROWS` ignore the
write (R35, R37, R44). CMD keeps nothing of the word (R26): its command is run by the access (R73). -/
def writeRegister (s : State) : Register → Word → State
  | .ctrl, v => { s with mode := v.extractLsb' 0 2, synvalid := false }
  | .len, v => { s with len := v.extractLsb' 0 12, synvalid := false }
  | .cpar, v => { s with cpar := v.extractLsb' 0 8, synvalid := false }
  | .pclen, v => { s with pclen := v.extractLsb' 0 9, synvalid := false }
  | .noiseP, v => { s with noiseP := v.extractLsb' 0 16 }
  | .rpar j, v => { s with rpar := writeRowWord s.maxRows s.rpar j v, synvalid := false }
  | .payload i, v =>
    if i < s.maxRows then { s with payload := s.payload.write i (v.extractLsb' 0 8), synvalid := false } else s
  | .param, _ => s
  | .cmd, _ => s
  | .status, _ => s
  | .syncnt, _ => s
  | .loc, _ => s
  | .colsyn, _ => s
  | .rowsyn _, _ => s
  | .reserved, _ => s

end Sys2Proof.Machine
end

