-- ==== Sys2Proof/Machine/Bus.lean ====
section
/-! DEFINITION. The host's port: taking the next input, and where a CMD write's command comes from (20_memory.md). -/

namespace Sys2Proof.Machine

/-- A read returns the register's word to the host and changes nothing of the block (R72, R77). -/
def hostRead (off : Word) (s : State) : State :=
  { s with readData := s.readData ++ [readRegister s (registerAt off)] }

/-- A write stores into its register; a write to CMD runs the command its word encodes, and ILLEGAL_COMMAND is raised for a
reserved opcode (R73, R105, R218). -/
def hostWrite (off v : Word) (s : State) : Access :=
  match registerAt off with
  | .cmd =>
    match decode v with
    | .ok i => .command i s
    | .error _ => .done (raiseError .illegalCommand s)
  | r => .done (writeRegister s r v)

/-- Take one input from the host's port. Inputs complete in issue order, one at a time (R71, R79); with none the block is idle
and holds its state (R228; log 4). -/
def nextAccess (s : State) : Access :=
  match s.events with
  | [] => .done s
  | .reset :: rest => .done (resetEvent { s with events := rest })
  | .read off :: rest => .done (hostRead off { s with events := rest })
  | .write off v :: rest => hostWrite off v { s with events := rest }

/-- `s` with a CMD write of `v` as the host's next access (R26). -/
def issueCommand (v : Word) (s : State) : State := { s with events := .write 0x00C#32 v :: s.events }

end Sys2Proof.Machine
end

