-- ==== Sys2Proof/Machine/Operands.lean ====
section
/-! DEFINITION. The commands' implicit operands: the payload length, the parity mode, and the checks that read them
(60_exceptions.md R219). -/

namespace Sys2Proof.Machine

/-- `n = S.LEN >> 3`, the number of payload rows (R12). -/
def State.rows (s : State) : Nat := s.len.toNat / 8

/-- The mode a MODE value names; CRC (2) and the unrecognised value 3 name none (R24). -/
def ParityMode.ofBits (b : BitVec 2) : Option ParityMode :=
  if b = 0#2 then some .even else if b = 1#2 then some .odd else none

/-- `check_len()`: FRAMING_ERROR when `LEN[2:0] != 0`, then LENGTH_ERROR when LEN is 0 or beyond the capacity (R211, R214,
R219). -/
def checkLen (s : State) : Except CommandError Unit :=
  if s.len.toNat % 8 ≠ 0 then .error .framing
  else if s.len.toNat = 0 ∨ s.len.toNat > 8 * s.maxRows then .error .length
  else .ok ()

/-- `check_mode()`, which answers the mode it accepts: UNSUPPORTED_MODE when MODE is 2 or 3 (R212, R219). -/
def checkMode (s : State) : Except CommandError ParityMode :=
  match ParityMode.ofBits s.mode with
  | some m => .ok m
  | none => .error .unsupportedMode

/-- CHECK's own check: CONSISTENCY_ERROR unless `PCLEN = n + 8` (R126, R213). -/
def checkCodeLength (s : State) : Except CommandError Unit :=
  if s.pclen.toNat = s.rows + 8 then .ok () else .error .consistency

/-- FLIP's own check: INDEX_ERROR unless the index is below LEN (R150, R215). -/
def checkIndex (f : Nat) (s : State) : Except CommandError Unit :=
  if f < s.len.toNat then .ok () else .error .index

/-- CORRECT's check: NO_SYNDROME unless SYNVALID is 1 (R170, R217). -/
def checkSyndrome (s : State) : Except CommandError Unit :=
  if s.synvalid then .ok () else .error .noSyndrome

end Sys2Proof.Machine
end

