-- ==== Sys2Proof/Machine/Channel.lean ====
section
/-! DEFINITION. NoisyChannel: FLIP and NOISE (41_channel.md). -/

namespace Sys2Proof.Machine

/-- NOISE's loop over `count` payload bits from bit `f` on, in ascending order: one draw per bit, and the bit is inverted when
its draw is below `p`, both unsigned (R151, R153). -/
def transmit (p : BitVec 16) : (count f : Nat) → Memory → Noise → Memory × Noise
  | 0, _, m, ν => (m, ν)
  | count + 1, f, m, ν => transmit p count (f + 1) (if ν.draw.1 < p then flipBit m f else m) ν.draw.2

/-- The body of NOISE after its checks (R151). -/
def transmitStage (s : State) : State :=
  { s with
    payload := (transmit s.noiseP s.len.toNat 0 s.payload s.noise).1
    noise := (transmit s.noiseP s.len.toNat 0 s.payload s.noise).2
    synvalid := false }

/-- The body of FLIP after its checks (R150). -/
def flipStage (f : Nat) (s : State) : State := { s with payload := flipBit s.payload f, synvalid := false }

/-- FLIP: invert payload bit `f` (R150). -/
def execFlip (f : Nat) (s : State) : Host.Outcome State Fault Refusal :=
  complete s do
    checkLen s
    checkIndex f s
    return flipStage f s

/-- NOISE: flip each payload bit when its noise draw falls below NOISE_P (R151). -/
def execNoise (s : State) : Host.Outcome State Fault Refusal :=
  complete s do
    checkLen s
    return transmitStage s

end Sys2Proof.Machine
end

