-- ==== Sys2Proof/Machine/Codec.lean ====
section
/-! DEFINITION. ParityCodec: the parity function, BUILD and CHECK (40_codec.md). -/

namespace Sys2Proof.Machine

/-- `xor_reduce`, 0 for an empty list (R12). -/
def xorReduce : List Bool → Bool
  | [] => false
  | b :: bs => b ^^ xorReduce bs

/-- `par(m, bits)`: the XOR of the bits under EVEN, its complement under ODD (R120, 90_conflicts.md C1; log 17). -/
def par (m : ParityMode) (bits : List Bool) : Bool :=
  match m with
  | .even => xorReduce bits
  | .odd => true ^^ xorReduce bits

/-- `rp(m, i)`, the parity of row `i` (R121). -/
def rowParity (m : ParityMode) (p : Memory) (i : Nat) : Bool :=
  par m ((List.range 8).map fun k => pbit p (8 * i + k))

/-- `cp(m, k)`, the parity of column `k` over `n` rows (R122). -/
def colParity (m : ParityMode) (p : Memory) (n k : Nat) : Bool :=
  par m ((List.range n).map fun i => pbit p (k + 8 * i))

/-- The row parities of the first `n` rows, row `i` at bit `i`, 0 beyond (R123). -/
def rowParities (m : ParityMode) (p : Memory) (n : Nat) : BitVec 256 := bitsBelow 256 n fun i => rowParity m p i

/-- The column parities over `n` rows, column `k` at bit `7 - k` (R30, R123). -/
def colParities (m : ParityMode) (p : Memory) (n : Nat) : BitVec 8 := bitsBelow 8 8 fun b => colParity m p n (7 - b)

/-- The body of BUILD after its checks (R123). -/
def buildStage (m : ParityMode) (s : State) : State :=
  { s with
    rpar := rowParities m s.payload s.rows
    cpar := colParities m s.payload s.rows
    pclen := BitVec.ofNat 9 (s.rows + 8)
    synvalid := false }

/-- The body of CHECK after its checks (R124). -/
def checkStage (m : ParityMode) (s : State) : State :=
  { s with
    rowsyn := bitsBelow 256 s.rows fun i => rowParity m s.payload i ^^ s.rpar.getLsbD i
    colsyn := colParities m s.payload s.rows ^^^ s.cpar
    synvalid := true }

/-- BUILD: compute and store the parity code of the payload (R123). -/
def execBuild (s : State) : Host.Outcome State Fault Refusal :=
  complete s do
    checkLen s
    let m ← checkMode s
    return buildStage m s

/-- CHECK: recompute the parity of the received payload and flag each mismatched row and column (R124). -/
def execCheck (s : State) : Host.Outcome State Fault Refusal :=
  complete s do
    checkLen s
    let m ← checkMode s
    checkCodeLength s
    return checkStage m s

end Sys2Proof.Machine
end

