-- ==== Sys2Proof/Machine/Corrector.lean ====
section
/-! DEFINITION. ErrorCorrector: CORRECT (42_corrector.md). -/

namespace Sys2Proof.Machine

/-- The flat index `8*r + c` of a pair (R170). -/
def flatIndex (rc : Nat × Nat) : Nat := 8 * rc.1 + rc.2

/-- The body of CORRECT after its check: the bit at each pair is inverted, in place (R170). -/
def correctStage (s : State) : State :=
  { s with
    payload := (s.pairs.map flatIndex).foldl flipBit s.payload
    ncorr := BitVec.ofNat 4 s.npairs
    synvalid := false }

/-- CORRECT: flip the bit at each (flagged row, flagged column) pair (R170). -/
def execCorrect (s : State) : Host.Outcome State Fault Refusal :=
  complete s do
    checkSyndrome s
    return correctStage s

end Sys2Proof.Machine
end

