-- ==== Sys2Proof/Machine/Control.lean ====
section
/-! DEFINITION. FrameController: NOP and RUN (43_control.md). -/

namespace Sys2Proof.Machine

/-- NOP: do nothing but report success (R190). -/
def execNop (s : State) : Host.Outcome State Fault Refusal := complete s (.ok s)

/-- RUN: BUILD, TRANSMIT, CHECK and CORRECT in one command, each stage on the state the one before it wrote, the mode read once
at the start (R191, R192). -/
def execRun (s : State) : Host.Outcome State Fault Refusal :=
  complete s do
    checkLen s
    let m ← checkMode s
    return correctStage (checkStage m (transmitStage (buildStage m s)))

end Sys2Proof.Machine
end

