-- ==== Sys2Proof/Machine/Dispatch.lean ====
section
/-! DEFINITION. The meaning of each command, one arm per constructor. -/

namespace Sys2Proof.Machine

def exec (i : Instr) (s : State) : Host.Outcome State Fault Refusal :=
  match i with
  | .nop => Sys2Proof.Machine.execNop s
  | .build => Sys2Proof.Machine.execBuild s
  | .flip f => Sys2Proof.Machine.execFlip f s
  | .noise => Sys2Proof.Machine.execNoise s
  | .check => Sys2Proof.Machine.execCheck s
  | .correct => Sys2Proof.Machine.execCorrect s
  | .run => Sys2Proof.Machine.execRun s

end Sys2Proof.Machine
end

