-- ==== Sys2Proof/Machine/Step.lean ====
section
/-! DEFINITION. One step: the next input of the block, whole, the command of a CMD write included (R76). -/

namespace Sys2Proof.Machine

/-- One step: the block takes the next input of the host's port, and a CMD write runs its whole command inside the access
(R73, R76). -/
def step (s : State) : Host.Outcome State Fault Refusal :=
  match nextAccess s with
  | .done t => .next t
  | .command i t => exec i t

/-- `s` with a CMD write of the word `w` (its low `nbits` bits, the others 0) as the host's next access: the block fetches no
program, so a command comes to run by the host's write of CMD (R21, R26, R82; log 6). -/
def State.withFetchWord (s : State) (nbits w : Nat) : State := issueCommand (BitVec.ofNat 32 (w % 2 ^ nbits)) s

end Sys2Proof.Machine
end

