-- ==== Sys2Proof/Safety.lean ====
section
/-! DEFINITION. The terms the claims use: what a well-formed state is, when a command's checks pass, what SYNVALID promises, and
the spec's own counts. -/

namespace Sys2Proof.Machine

/-- `popcount` of a byte (R12). -/
def ones (b : Byte) : Nat := (List.range 8).countP fun k => b.getLsbD k

/-- `PAYLOAD[0] XOR ... XOR PAYLOAD[n-1]` (R127). -/
def xorRows (m : Memory) : Nat → Byte
  | 0 => 0x00#8
  | n + 1 => xorRows m n ^^^ m.read n

/-- What holds of the storage at reset and after every step: the capacity is 1 to 256 (R8); the payload is in canonical form and
lists no row beyond it (R20); RPAR and ROWSYN hold nothing at or above it (R20); ERR is a produced code (R210); NCORR is at most 8
(R41; log 15). -/
def State.wf (s : State) : Bool :=
  decide (1 ≤ s.maxRows) && decide (s.maxRows ≤ 256) && s.payload.wf && s.payload.within s.maxRows &&
    decide (s.rpar.toNat < 2 ^ s.maxRows) && decide (s.rowsyn.toNat < 2 ^ s.maxRows) &&
    decide (s.err.toNat ≤ 7) && decide (s.ncorr.toNat ≤ 8)

/-- `LEN[2:0] != 0`: FRAMING_ERROR (R211). -/
abbrev State.FramingBad (s : State) : Prop := s.len.toNat % 8 ≠ 0

/-- LEN is a multiple of 8, but 0 or beyond the capacity: LENGTH_ERROR (R214). -/
abbrev State.LengthBad (s : State) : Prop :=
  s.len.toNat % 8 = 0 ∧ (s.len.toNat = 0 ∨ s.len.toNat > 8 * s.maxRows)

/-- LEN passes `check_len` (R219): a positive multiple of 8 within the capacity. -/
abbrev State.LenValid (s : State) : Prop :=
  s.len.toNat % 8 = 0 ∧ 0 < s.len.toNat ∧ s.len.toNat ≤ 8 * s.maxRows

/-- MODE is CRC or unrecognised: UNSUPPORTED_MODE (R24, R212). -/
abbrev State.ModeBad (s : State) : Prop := s.mode = 2#2 ∨ s.mode = 3#2

/-- MODE names the parity mode `m` (R24). -/
abbrev State.ModeIs (s : State) (m : ParityMode) : Prop :=
  (s.mode = 0#2 ∧ m = .even) ∨ (s.mode = 1#2 ∧ m = .odd)

/-- What SYNVALID = 1 promises (R40): LEN, MODE and PCLEN are as CHECK accepts them, and ROWSYN and COLSYN are the syndrome of
the framed unit as it stands now (R124). -/
def State.SyndromeCurrent (s : State) : Prop :=
  s.synvalid = true →
    s.LenValid ∧ s.pclen.toNat = s.rows + 8 ∧
    ∃ m, s.ModeIs m ∧
      (∀ i, s.rowsyn.getLsbD i = (decide (i < s.rows) && (rowParity m s.payload i ^^ s.rpar.getLsbD i))) ∧
      (∀ k, k < 8 → s.colsyn.getLsbD (7 - k) = (colParity m s.payload s.rows k ^^ s.cpar.getLsbD (7 - k)))

/-- The result code of a command, by the checks of R219 in their order. -/
def resultCode (i : Instr) (s : State) : BitVec 4 :=
  match i with
  | .nop => 0#4
  | .build | .run => if s.FramingBad then 1#4 else if s.LengthBad then 4#4 else if s.ModeBad then 2#4 else 0#4
  | .check =>
    if s.FramingBad then 1#4 else if s.LengthBad then 4#4 else if s.ModeBad then 2#4
    else if s.pclen.toNat = s.len.toNat / 8 + 8 then 0#4 else 3#4
  | .flip f =>
    if s.FramingBad then 1#4 else if s.LengthBad then 4#4 else if f < s.len.toNat then 0#4 else 5#4
  | .noise => if s.FramingBad then 1#4 else if s.LengthBad then 4#4 else 0#4
  | .correct => if s.synvalid then 0#4 else 6#4

/-- The word of the CMD write that is the next input, if it is one (R26, R74). -/
def State.nextCmdWord (s : State) : Option Word :=
  match s.events with
  | .write off v :: _ => if off &&& 0x7FC#32 = 0x00C#32 then some v else none
  | _ => none

/-- The next input is a CMD write whose word encodes the command `i`. -/
def State.nextRuns (s : State) (i : Instr) : Prop := ∃ v, s.nextCmdWord = some v ∧ decode v = .ok i

/-- The next input is the reset event. -/
def State.nextResets (s : State) : Prop := s.events.head? = some .reset

/-- The next input is a write to the register `r`. -/
def State.nextWrites (s : State) (r : Register) : Prop :=
  ∃ off v rest, s.events = .write off v :: rest ∧ registerAt off = r

/-- The registers whose write clears SYNVALID (R40); NOISE_P is not among them (R34; log 18). -/
def Register.clearsSynvalid (maxRows : Nat) : Register → Bool
  | .ctrl | .len | .cpar | .pclen | .rpar _ => true
  | .payload i => decide (i < maxRows)
  | .param | .cmd | .status | .syncnt | .loc | .colsyn | .noiseP | .rowsyn _ | .reserved => false

/-- The registers a write to which has no effect (R44). -/
def Register.ignoresWrites : Register → Bool
  | .param | .status | .syncnt | .loc | .colsyn | .rowsyn _ | .reserved => true
  | .ctrl | .len | .cmd | .cpar | .pclen | .noiseP | .rpar _ | .payload _ => false

/-- The bits of a register that are not reserved (R22 to R37). -/
def Register.definedBits : Register → Word
  | .param => 0x00FFFFFF#32
  | .ctrl => 0x00000003#32
  | .len => 0x00000FFF#32
  | .cmd => 0x00000000#32
  | .status => 0x0000007F#32
  | .syncnt => 0x0F0F01FF#32
  | .loc => 0x07FF07FF#32
  | .cpar => 0x000000FF#32
  | .colsyn => 0x000000FF#32
  | .pclen => 0x000001FF#32
  | .noiseP => 0x0000FFFF#32
  | .rpar _ => 0xFFFFFFFF#32
  | .rowsyn _ => 0xFFFFFFFF#32
  | .payload _ => 0x000000FF#32
  | .reserved => 0x00000000#32

end Sys2Proof.Machine
end

