-- ==== Sys2Proof/Certificates/Slice0/Obligations.lean ====
section
/-! DEFINITION. The statements for the provers: what the numbered rules of spec/ say the block does. A statement about a step
takes the block's next input from `State.events`, the model's own form of the host's port (log 4). -/

open Sys2Proof Sys2Proof.Machine

/-! ## Command words (30_encoding.md) -/

/-- A step whose input is a CMD write runs the command that the word encodes, on the state with that input taken and nothing else
changed (20_memory.md R73, R76; 10_state.md R26). -/
def Obligations.StepRunsDecodedCommand : Prop :=
  ∀ (s : State) (off v : Word) (rest : List Event) (i : Instr),
    s.events = .write off v :: rest → off &&& 0x7FC#32 = 0x00C#32 → decode v = .ok i →
      i.wellFormed = true ∧ step s = exec i { s with events := rest }

/-- A command placed by `State.withFetchWord` is the very next one to run, on the state it was placed in. The placing is the
model's own (log 6). -/
def Obligations.PlacedCommandRunsNext : Prop :=
  ∀ (s : State) (nbits w : Nat) (i : Instr),
    decodeTableWord nbits w = some i → step (s.withFetchWord nbits w) = exec i s

/-- R105, R218: a CMD write with OP in 0x7 to 0xF raises ILLEGAL_COMMAND, code 7, and changes nothing else. -/
def Obligations.ReservedOpcodeRaisesIllegalCommand : Prop :=
  ∀ (s : State) (off v : Word) (rest : List Event),
    s.events = .write off v :: rest → off &&& 0x7FC#32 = 0x00C#32 → 0x7 ≤ (v.extractLsb' 0 4).toNat →
      step s = .next { s with events := rest, err := 7#4 }

/-- R103: two CMD words that differ only in ignored bits run the same command: only OP counts, and ARG for FLIP (OP = 2). -/
def Obligations.IgnoredBitsDoNotMatter : Prop :=
  ∀ (s : State) (off v w : Word) (rest : List Event),
    off &&& 0x7FC#32 = 0x00C#32 →
    v.extractLsb' 0 4 = w.extractLsb' 0 4 →
    (v.extractLsb' 0 4 = 2#4 → v.extractLsb' 16 11 = w.extractLsb' 16 11) →
      step { s with events := .write off v :: rest } = step { s with events := .write off w :: rest }

/-- Decoding an encoded command gives it back, for every command that has an encoding and every operand (R100 to R104). -/
def Obligations.DecodeOfEncodeIsTheCommand : Prop :=
  ∀ i : Instr, i.wellFormed = true → decode (encode i) = .ok i

/-- Encoding a decoded command gives the word back with its ignored bits cleared: OP is kept, and ARG for FLIP (R100, R103). -/
def Obligations.EncodeOfDecodeClearsIgnoredBits : Prop :=
  ∀ (v : Word) (i : Instr), decode v = .ok i →
    encode i = v &&& (if v.extractLsb' 0 4 = 2#4 then 0x07FF000F#32 else 0x0000000F#32)

/-- The CMD words of R109's table, and the words of V-X3, V-F1 and V-X2, decode to what the table says. -/
def Obligations.WrittenOutWordsDecode : Prop :=
  decode 0x00000000#32 = .ok .nop ∧ decode 0x00000001#32 = .ok .build ∧ decode 0x000B0002#32 = .ok (.flip 11) ∧
  decode 0x00000003#32 = .ok .noise ∧ decode 0x00000004#32 = .ok .check ∧ decode 0x00000005#32 = .ok .correct ∧
  decode 0x00000006#32 = .ok .run ∧ decode 0xFFF0FFF0#32 = .ok .nop ∧ decode 0x00100002#32 = .ok (.flip 16) ∧
  decode 0xFFFF000F#32 = .error (.reservedOpcode 15)

/-! ## The register window (10_state.md, 20_memory.md) -/

/-- R43, R44, R74: the register at every byte offset, bits [1:0] and the bits above bit 10 ignored. -/
def Obligations.RegisterMapIsAsSpecified : Prop :=
  ∀ (off w : Word), off &&& 0x7FC#32 = w &&& 0x7FC#32 →
    (w = 0x000#32 → registerAt off = .param) ∧ (w = 0x004#32 → registerAt off = .ctrl) ∧
    (w = 0x008#32 → registerAt off = .len) ∧ (w = 0x00C#32 → registerAt off = .cmd) ∧
    (w = 0x010#32 → registerAt off = .status) ∧ (w = 0x014#32 → registerAt off = .syncnt) ∧
    (w = 0x018#32 → registerAt off = .loc) ∧ (w = 0x01C#32 → registerAt off = .cpar) ∧
    (w = 0x020#32 → registerAt off = .colsyn) ∧ (w = 0x024#32 → registerAt off = .pclen) ∧
    (w = 0x028#32 → registerAt off = .noiseP) ∧
    (0x02C#32 ≤ w → w ≤ 0x0FF#32 → registerAt off = .reserved) ∧
    (∀ j, j < 8 → w = BitVec.ofNat 32 (0x100 + 4 * j) → registerAt off = .rpar j) ∧
    (0x120#32 ≤ w → w ≤ 0x1FF#32 → registerAt off = .reserved) ∧
    (∀ j, j < 8 → w = BitVec.ofNat 32 (0x200 + 4 * j) → registerAt off = .rowsyn j) ∧
    (0x220#32 ≤ w → w ≤ 0x3FF#32 → registerAt off = .reserved) ∧
    (∀ i, i < 256 → w = BitVec.ofNat 32 (0x400 + 4 * i) → registerAt off = .payload i)

/-- R72: a read returns the word of the register at `off & 0x7FC` and changes no state of the block. -/
def Obligations.ReadReturnsTheWordAndChangesNothing : Prop :=
  ∀ (s : State) (off : Word) (rest : List Event), s.events = .read off :: rest →
    step s = .next { s with events := rest, readData := s.readData ++ [readRegister s (registerAt (off &&& 0x7FC#32))] }

/-- R27, R39: STATUS holds ERR, SYNVALID, SINGLE (one flagged row and one flagged column), LOCVALID (at least one of each) and
zeros. -/
def Obligations.StatusHoldsItsFields : Prop :=
  ∀ s : State,
    (readRegister s .status).extractLsb' 0 4 = s.err ∧
    (readRegister s .status).getLsbD 4 = s.synvalid ∧
    ((readRegister s .status).getLsbD 5 = true ↔
      (∃ r, s.rowsList = [r]) ∧ (∃ k, s.colsList = [k])) ∧
    ((readRegister s .status).getLsbD 6 = true ↔
      (∃ r, r < s.maxRows ∧ s.rowsyn.getLsbD r = true) ∧ (∃ k, k < 8 ∧ s.colsyn.getLsbD (7 - k) = true)) ∧
    (∀ b, 7 ≤ b → (readRegister s .status).getLsbD b = false)

/-- R28: SYNCNT, at offset 0x014, holds the number of flagged rows, of flagged columns, NCORR and zeros; writes are ignored. -/
def Obligations.SyncntHoldsItsCounts : Prop :=
  ∀ s : State, s.wf = true →
    ((readRegister s .syncnt).extractLsb' 0 9).toNat = (List.range 256).countP (fun r => s.rowsyn.getLsbD r) ∧
    ((readRegister s .syncnt).extractLsb' 16 4).toNat = ones s.colsyn ∧
    (readRegister s .syncnt).extractLsb' 24 4 = s.ncorr ∧
    (readRegister s .syncnt).extractLsb' 9 7 = 0#7 ∧ (readRegister s .syncnt).extractLsb' 20 4 = 0#4 ∧
    (readRegister s .syncnt).extractLsb' 28 4 = 0#4 ∧
    registerAt 0x014#32 = .syncnt ∧ ∀ v, writeRegister s .syncnt v = s

/-- R29: LOC, at offset 0x018, holds the lowest flagged row, the lowest flagged column and their flat index when there is one of
each, and reads 0 otherwise; writes are ignored. -/
def Obligations.LocHoldsTheFirstPair : Prop :=
  ∀ s : State, s.wf = true →
    (∀ r c, s.rowsyn.getLsbD r = true → (∀ r', r' < r → s.rowsyn.getLsbD r' = false) →
      c < 8 → s.colsyn.getLsbD (7 - c) = true → (∀ c', c' < c → s.colsyn.getLsbD (7 - c') = false) →
        ((readRegister s .loc).extractLsb' 0 8).toNat = r ∧ ((readRegister s .loc).extractLsb' 8 3).toNat = c ∧
        ((readRegister s .loc).extractLsb' 16 11).toNat = 8 * r + c ∧
        (readRegister s .loc).extractLsb' 11 5 = 0#5 ∧ (readRegister s .loc).extractLsb' 27 5 = 0#5) ∧
    (s.rowsyn = 0#256 ∨ s.colsyn = 0#8 → readRegister s .loc = 0#32) ∧
    registerAt 0x018#32 = .loc ∧ ∀ v, writeRegister s .loc v = s

/-- R22: PARAM, at offset 0x000, reads `{0x00, 0x08, MAX_ROWS}`; writes are ignored, and no step, a reset among them, changes
it. -/
def Obligations.ParamIsConstant : Prop :=
  ∀ s : State, s.wf = true →
    readRegister s .param = 0x00#8 ++ 0x08#8 ++ BitVec.ofNat 16 s.maxRows ∧
    ((readRegister s .param).extractLsb' 0 16).toNat = s.maxRows ∧
    registerAt 0x000#32 = .param ∧ (∀ v, writeRegister s .param v = s) ∧
    ∀ t, step s = .next t → readRegister t .param = readRegister s .param

/-- What a read of each register that shows a field returns: the field zero-extended, row `r` at bit `r & 31` of word `r >> 5`,
payload bit `f` and flagged column `k` at bit `7 - (f & 7)` and `7 - k`; CMD, and rows at and above MAX_ROWS, read 0 (R23, R25, R26,
R30 to R37, R75). -/
def Obligations.ReadsReturnTheFields : Prop :=
  ∀ s : State, s.wf = true →
    readRegister s .ctrl = s.mode.zeroExtend 32 ∧ readRegister s .len = s.len.zeroExtend 32 ∧
    readRegister s .cmd = 0#32 ∧ readRegister s .cpar = s.cpar.zeroExtend 32 ∧
    readRegister s .colsyn = s.colsyn.zeroExtend 32 ∧ readRegister s .pclen = s.pclen.zeroExtend 32 ∧
    readRegister s .noiseP = s.noiseP.zeroExtend 32 ∧
    (∀ j b, b < 32 → (readRegister s (.rpar j)).getLsbD b = s.rpar.getLsbD (32 * j + b)) ∧
    (∀ j b, b < 32 → (readRegister s (.rowsyn j)).getLsbD b = s.rowsyn.getLsbD (32 * j + b)) ∧
    (∀ i, readRegister s (.payload i) = (s.payload.read i).zeroExtend 32) ∧
    (∀ r, s.maxRows ≤ r →
      s.rpar.getLsbD r = false ∧ s.rowsyn.getLsbD r = false ∧ readRegister s (.payload r) = 0#32) ∧
    (∀ f, (readRegister s (.payload (f / 8))).getLsbD (7 - f % 8) = pbit s.payload f) ∧
    (∀ k, k < 8 → ((readRegister s .colsyn).getLsbD (7 - k) = true ↔ k ∈ s.colsList)) ∧
    (∀ r, (readRegister s (.rowsyn (r / 32))).getLsbD (r % 32) = true ↔ r ∈ s.rowsList)

/-- A write to a read-write register is read back in its defined bits, rows at and above MAX_ROWS reading 0 (R23, R25, R30, R32,
R34, R35, R37, R79). -/
def Obligations.WrittenRegistersReadBack : Prop :=
  ∀ (s : State) (v : Word), s.wf = true →
    readRegister (writeRegister s .ctrl v) .ctrl = v &&& 0x00000003#32 ∧
    readRegister (writeRegister s .len v) .len = v &&& 0x00000FFF#32 ∧
    readRegister (writeRegister s .cpar v) .cpar = v &&& 0x000000FF#32 ∧
    readRegister (writeRegister s .pclen v) .pclen = v &&& 0x000001FF#32 ∧
    readRegister (writeRegister s .noiseP v) .noiseP = v &&& 0x0000FFFF#32 ∧
    (∀ j b, b < 32 → (readRegister (writeRegister s (.rpar j) v) (.rpar j)).getLsbD b =
      (decide (32 * j + b < s.maxRows) && v.getLsbD b)) ∧
    (∀ i, readRegister (writeRegister s (.payload i) v) (.payload i) =
      if i < s.maxRows then v &&& 0x000000FF#32 else 0#32)

/-- A step whose input is a write to a register other than CMD is `writeRegister` on the state with that input taken. A write to a
row of PAYLOAD or RPAR below MAX_ROWS stores the word's bits there and leaves every other row as it was, and no register write
touches another field but SYNVALID (R35, R37, R40, R73). That a write to NOISE_P keeps SYNVALID is R34's, against a sentence of R244
(log 18). -/
def Obligations.RegisterWriteFrame : Prop :=
  ∀ (s : State) (v : Word), s.wf = true →
    (∀ (off : Word) (rest : List Event), s.events = .write off v :: rest → registerAt off ≠ .cmd →
      step s = .next (writeRegister { s with events := rest } (registerAt off) v)) ∧
    (∀ i, i < s.maxRows → (writeRegister s (.payload i) v).payload.read i = v.extractLsb' 0 8) ∧
    (∀ j r, r / 32 = j → r < s.maxRows → (writeRegister s (.rpar j) v).rpar.getLsbD r = v.getLsbD (r % 32)) ∧
    (∀ i a, a ≠ i → (writeRegister s (.payload i) v).payload.read a = s.payload.read a) ∧
    (∀ j r, r / 32 ≠ j → (writeRegister s (.rpar j) v).rpar.getLsbD r = s.rpar.getLsbD r) ∧
    (∀ i, writeRegister s (.payload i) v = { s with
      payload := (writeRegister s (.payload i) v).payload, synvalid := (writeRegister s (.payload i) v).synvalid }) ∧
    (∀ j, writeRegister s (.rpar j) v = { s with rpar := (writeRegister s (.rpar j) v).rpar, synvalid := false }) ∧
    writeRegister s .ctrl v = { s with mode := v.extractLsb' 0 2, synvalid := false } ∧
    writeRegister s .len v = { s with len := v.extractLsb' 0 12, synvalid := false } ∧
    writeRegister s .cpar v = { s with cpar := v.extractLsb' 0 8, synvalid := false } ∧
    writeRegister s .pclen v = { s with pclen := v.extractLsb' 0 9, synvalid := false } ∧
    writeRegister s .noiseP v = { s with noiseP := v.extractLsb' 0 16 }

/-- R44: a write to a read-only register or a reserved offset has no effect, reserved offsets read 0, the reserved bits of a
register read 0 and are ignored by a write, and no register access but a CMD write touches ERR. -/
def Obligations.ReservedSpaceReadsZeroAndIgnoresWrites : Prop :=
  (∀ (s : State) (off v : Word) (rest : List Event), s.events = .write off v :: rest →
    (registerAt off).ignoresWrites = true → step s = .next { s with events := rest }) ∧
  (∀ s : State, readRegister s .reserved = 0#32) ∧
  (∀ (s : State) (r : Register), s.wf = true → readRegister s r &&& ~~~r.definedBits = 0#32) ∧
  (∀ (s : State) (r : Register) (v : Word), writeRegister s r (v &&& r.definedBits) = writeRegister s r v) ∧
  (∀ (s : State) (off v : Word) (rest : List Event),
    s.events = .read off :: rest ∨ (s.events = .write off v :: rest ∧ registerAt off ≠ .cmd) →
      ∃ t, step s = .next t ∧ t.err = s.err)

/-- R77: a second identical write to a register other than CMD leaves the same state. -/
def Obligations.RegisterWritesAreIdempotent : Prop :=
  ∀ (s : State) (off v : Word) (rest : List Event) (t : State), s.wf = true → registerAt off ≠ .cmd →
    step { s with events := .write off v :: .write off v :: rest } = .next t →
      step t = .next { t with events := rest }

/-- The writes of the sender sequence may come in any order (70_reset_and_hazards.md section 2): writes to two registers commute, and
SYNVALID is 0 after any writes of which one is to a register of the framed unit. The sequence writes CTRL, PAYLOAD and LEN, so
SYNVALID is 0 before its first command whether or not a write to NOISE_P clears it (log 18). From reset on, SYNVALID is 0 until the
first CMD write: each write before it, NOISE_P's too, leaves SYNVALID 0. -/
def Obligations.SenderWritesComeInAnyOrder : Prop :=
  (∀ (s : State) (q r : Register) (v w : Word), s.wf = true → q ≠ r →
    writeRegister (writeRegister s q v) r w = writeRegister (writeRegister s r w) q v) ∧
  (∀ (s : State) (ws : List (Register × Word)), (∃ w ∈ ws, w.1.clearsSynvalid s.maxRows = true) →
    (ws.foldl (fun t w => writeRegister t w.1 w.2) s).synvalid = false) ∧
  (∀ n, (State.resetWith n).synvalid = false) ∧
  (∀ s t : State, s.synvalid = false → s.nextCmdWord = none → step s = .next t → t.synvalid = false)

/-! ## The commands -/

/-- R190, R107: NOP sets ERR to 0 and changes nothing else. -/
def Obligations.NopReportsSuccess : Prop :=
  ∀ s : State, exec .nop s = .next { s with err := 0#4 }

/-- R123: BUILD raises its errors, in order, with nothing else changed; otherwise it stores the row parities of rows below `n` (0
from `n` on), the column parities and the length `n + 8`, clears SYNVALID, and changes nothing else. -/
def Obligations.BuildStoresTheParityCode : Prop :=
  ∀ s : State, s.wf = true →
    (s.FramingBad → exec .build s = .next { s with err := 1#4 }) ∧
    (s.LengthBad → exec .build s = .next { s with err := 4#4 }) ∧
    (s.LenValid → s.ModeBad → exec .build s = .next { s with err := 2#4 }) ∧
    (∀ m, s.LenValid → s.ModeIs m → ∃ t, exec .build s = .next t ∧
      (∀ i, t.rpar.getLsbD i = (decide (i < s.rows) && rowParity m s.payload i)) ∧
      (∀ k, k < 8 → t.cpar.getLsbD (7 - k) = colParity m s.payload s.rows k) ∧
      t.pclen.toNat = s.rows + 8 ∧ t.synvalid = false ∧ t.err = 0#4 ∧
      (∀ a, t.payload.read a = s.payload.read a) ∧
      t = { s with rpar := t.rpar, cpar := t.cpar, pclen := t.pclen, synvalid := false, err := 0#4 })

/-- R124: CHECK raises its errors, in order, with nothing else changed; otherwise it flags each row below `n` and each column whose
recomputed parity differs from the stored one, sets SYNVALID, and changes nothing else. -/
def Obligations.CheckFlagsTheMismatches : Prop :=
  ∀ s : State, s.wf = true →
    (s.FramingBad → exec .check s = .next { s with err := 1#4 }) ∧
    (s.LengthBad → exec .check s = .next { s with err := 4#4 }) ∧
    (s.LenValid → s.ModeBad → exec .check s = .next { s with err := 2#4 }) ∧
    (∀ m, s.LenValid → s.ModeIs m → s.pclen.toNat ≠ s.rows + 8 → exec .check s = .next { s with err := 3#4 }) ∧
    (∀ m, s.LenValid → s.ModeIs m → s.pclen.toNat = s.rows + 8 → ∃ t, exec .check s = .next t ∧
      (∀ i, t.rowsyn.getLsbD i = (decide (i < s.rows) && (rowParity m s.payload i ^^ s.rpar.getLsbD i))) ∧
      (∀ k, k < 8 → t.colsyn.getLsbD (7 - k) = (colParity m s.payload s.rows k ^^ s.cpar.getLsbD (7 - k))) ∧
      t.synvalid = true ∧ t.err = 0#4 ∧
      (∀ a, t.payload.read a = s.payload.read a) ∧
      t = { s with rowsyn := t.rowsyn, colsyn := t.colsyn, synvalid := true, err := 0#4 })

/-- R150: FLIP raises its errors, in order, with nothing else changed; otherwise it inverts payload bit `f` alone, in row `f >> 3`,
clears SYNVALID, and changes nothing else. It never reads MODE. -/
def Obligations.FlipInvertsOneBit : Prop :=
  ∀ (s : State) (f : Nat), s.wf = true →
    (s.FramingBad → exec (.flip f) s = .next { s with err := 1#4 }) ∧
    (s.LengthBad → exec (.flip f) s = .next { s with err := 4#4 }) ∧
    (s.LenValid → s.len.toNat ≤ f → exec (.flip f) s = .next { s with err := 5#4 }) ∧
    (s.LenValid → f < s.len.toNat → ∃ t, exec (.flip f) s = .next t ∧
      (∀ g, pbit t.payload g = (pbit s.payload g ^^ decide (g = f))) ∧
      (∀ a, a ≠ f / 8 → t.payload.read a = s.payload.read a) ∧
      t.synvalid = false ∧ t.err = 0#4 ∧
      t = { s with payload := t.payload, synvalid := false, err := 0#4 })

/-- R151, R153: NOISE raises its errors, in order, with nothing else changed; otherwise it requests LEN draws, inverts bit `f` iff
draw `f` is below NOISE_P, clears SYNVALID, and changes nothing else. -/
def Obligations.NoiseFlipsTheBitsBelowThreshold : Prop :=
  ∀ s : State, s.wf = true →
    (s.FramingBad → exec .noise s = .next { s with err := 1#4 }) ∧
    (s.LengthBad → exec .noise s = .next { s with err := 4#4 }) ∧
    (s.LenValid → ∃ t, exec .noise s = .next t ∧
      (∀ f, pbit t.payload f =
        (pbit s.payload f ^^ (decide (f < s.len.toNat) && decide ((s.noise.answer f).toNat < s.noiseP.toNat)))) ∧
      (∀ a, s.rows ≤ a → t.payload.read a = s.payload.read a) ∧
      t.noise = s.noise.advance s.len.toNat ∧ t.synvalid = false ∧ t.err = 0#4 ∧
      t = { s with payload := t.payload, noise := t.noise, synvalid := false, err := 0#4 })

/-- R170: CORRECT raises NO_SYNDROME with nothing else changed when SYNVALID is 0; otherwise it inverts exactly the bits at the
pairs, counts them in NCORR, clears SYNVALID, and changes nothing else. Where SYNVALID keeps its promise, the bits are below
LEN. -/
def Obligations.CorrectFlipsThePairs : Prop :=
  ∀ s : State, s.wf = true →
    (s.synvalid = false → exec .correct s = .next { s with err := 6#4 }) ∧
    (s.synvalid = true → ∃ t, exec .correct s = .next t ∧
      (∀ f, pbit t.payload f = (pbit s.payload f ^^ decide (f ∈ s.pairs.map fun rc => 8 * rc.1 + rc.2))) ∧
      (∀ a, a ∉ s.pairs.map Prod.fst → t.payload.read a = s.payload.read a) ∧
      t.ncorr.toNat = s.npairs ∧ t.synvalid = false ∧ t.err = 0#4 ∧
      t = { s with payload := t.payload, ncorr := t.ncorr, synvalid := false, err := 0#4 }) ∧
    (s.SyndromeCurrent → s.synvalid = true → ∀ rc ∈ s.pairs, 8 * rc.1 + rc.2 < s.len.toNat)

/-- R191: RUN raises its errors, in order, with nothing else changed and no draw requested; otherwise it does what BUILD, NOISE,
CHECK and CORRECT do one after the other, each of them succeeding, keeps CHECK's syndrome, requests LEN draws, and touches no
payload row from `n` on. Its corner cases are RunRestoresUpToOneFlip. -/
def Obligations.RunIsTheWholePipeline : Prop :=
  ∀ s : State, s.wf = true →
    (s.FramingBad → exec .run s = .next { s with err := 1#4 }) ∧
    (s.LengthBad → exec .run s = .next { s with err := 4#4 }) ∧
    (s.LenValid → s.ModeBad → exec .run s = .next { s with err := 2#4 }) ∧
    (∀ m, s.LenValid → s.ModeIs m → ∃ a b c t,
      exec .build s = .next a ∧ exec .noise a = .next b ∧ exec .check b = .next c ∧ exec .correct c = .next t ∧
      exec .run s = .next t ∧
      a.err = 0#4 ∧ b.err = 0#4 ∧ c.err = 0#4 ∧ t.err = 0#4 ∧ t.synvalid = false ∧
      t.rowsyn = c.rowsyn ∧ t.colsyn = c.colsyn ∧ t.noise = s.noise.advance s.len.toNat ∧
      (∀ i, s.rows ≤ i → t.payload.read i = s.payload.read i) ∧
      t = { s with
        rpar := t.rpar, cpar := t.cpar, pclen := t.pclen, payload := t.payload, rowsyn := t.rowsyn, colsyn := t.colsyn,
        ncorr := t.ncorr, synvalid := t.synvalid, err := t.err, noise := t.noise })

/-! ## Rules over all commands -/

/-- R216: a command that raises an error writes ERR and changes nothing else, and no draw is requested: so for every command, and
for every CMD write, the reserved opcodes among them. -/
def Obligations.ErrorsChangeNothingElse : Prop :=
  (∀ (i : Instr) (s t : State), exec i s = .next t → t.err ≠ 0#4 → t = { s with err := t.err }) ∧
  (∀ (s t : State) (off v : Word) (rest : List Event), s.events = .write off v :: rest → registerAt off = .cmd →
    step s = .next t → t.err ≠ 0#4 → t = { s with events := rest, err := t.err })

/-- R219: every command ends with the code of the first check that fails, in the order of R219's table, or with 0; a reserved
opcode ends with 7 whatever else holds. -/
def Obligations.FirstFailingCheckGivesTheCode : Prop :=
  (∀ (i : Instr) (s : State), ∃ t, exec i s = .next t ∧ t.err = resultCode i s) ∧
  (∀ (s : State) (off v : Word) (rest : List Event), s.events = .write off v :: rest → registerAt off = .cmd →
    ∃ t, step s = .next t ∧ t.err = (match decode v with
      | .ok i => resultCode i s
      | .error _ => 7#4))

/-- R153: a successful NOISE or RUN requests LEN draws, and no other command, and no failing one, requests any. -/
def Obligations.OnlyNoiseAndRunDraw : Prop :=
  ∀ (i : Instr) (s t : State), exec i s = .next t →
    t.noise = if (i = .noise ∨ i = .run) ∧ t.err = 0#4 then s.noise.advance s.len.toNat else s.noise

/-- R125: CHECK never writes PAYLOAD, LEN, MODE, RPAR, CPAR, PCLEN, NOISE_P or NCORR. -/
def Obligations.CheckOnlyReads : Prop :=
  ∀ s t : State, exec .check s = .next t →
    (∀ a, t.payload.read a = s.payload.read a) ∧ t.payload = s.payload ∧ t.len = s.len ∧ t.mode = s.mode ∧
    t.rpar = s.rpar ∧ t.cpar = s.cpar ∧ t.pclen = s.pclen ∧ t.noiseP = s.noiseP ∧ t.ncorr = s.ncorr

/-- No command touches a payload row from `LEN >> 3` on (70_reset_and_hazards.md, the sentence under "Payload bytes beyond LEN"),
in every state where SYNVALID keeps its promise. -/
def Obligations.CommandsLeaveBytesBeyondLen : Prop :=
  ∀ (i : Instr) (s t : State), s.wf = true → s.SyndromeCurrent → exec i s = .next t →
    ∀ a, s.rows ≤ a → t.payload.read a = s.payload.read a

/-! ## Flags and bookkeeping (10_state.md) -/

/-- R39: the flagged rows and columns in ascending order, their counts, the flags and the pairs. -/
def Obligations.DerivedViewsAreAsSpecified : Prop :=
  ∀ s : State,
    s.rowsList.Pairwise (· < ·) ∧ (∀ i, i ∈ s.rowsList ↔ i < s.maxRows ∧ s.rowsyn.getLsbD i = true) ∧
    s.colsList.Pairwise (· < ·) ∧ (∀ k, k ∈ s.colsList ↔ k < 8 ∧ s.colsyn.getLsbD (7 - k) = true) ∧
    s.nRowErr = s.rowsList.length ∧ s.nColErr = s.colsList.length ∧
    (s.single = true ↔ s.nRowErr = 1 ∧ s.nColErr = 1) ∧ (s.locValid = true ↔ 1 ≤ s.nRowErr ∧ 1 ≤ s.nColErr) ∧
    s.npairs = min s.nRowErr s.nColErr ∧ s.pairs.length = s.npairs ∧
    ∀ j, j < s.npairs → s.pairs[j]? = some (s.rowsList.getD j 0, s.colsList.getD j 0)

/-- What sets, clears and keeps SYNVALID, and that CORRECT raises NO_SYNDROME when it is 0 (10_state.md sections 2 and 4). That a write
to NOISE_P keeps it is the model's reading of R34 and R40 against a sentence of R244 (log 18). -/
def Obligations.SynvalidFollowsItsEvents : Prop :=
  (∀ (i : Instr) (s t : State), exec i s = .next t →
    t.synvalid = if t.err ≠ 0#4 ∨ i = .nop then s.synvalid else decide (i = .check)) ∧
  (∀ (s t : State) (off v : Word) (rest : List Event), s.events = .write off v :: rest → registerAt off ≠ .cmd →
    step s = .next t → t.synvalid = (s.synvalid && !(registerAt off).clearsSynvalid s.maxRows)) ∧
  (∀ (s t : State) (off : Word) (rest : List Event), s.events = .read off :: rest → step s = .next t →
    t.synvalid = s.synvalid) ∧
  (∀ s t : State, s.nextResets → step s = .next t → t.synvalid = false) ∧
  (∀ (s t : State) (v : Word) (e : DecodeError), s.nextCmdWord = some v → decode v = .error e → step s = .next t →
    t.synvalid = s.synvalid) ∧
  (∀ s : State, s.synvalid = false → exec .correct s = .next { s with err := 6#4 })

/-- R31, R36, R41, R42: which inputs can change ERR, NCORR, ROWSYN and COLSYN. -/
def Obligations.ResultRegistersHaveTheirWriters : Prop :=
  ∀ s t : State, step s = .next t →
    (t.err ≠ s.err → s.nextResets ∨ ∃ v, s.nextCmdWord = some v) ∧
    (t.ncorr ≠ s.ncorr → s.nextResets ∨ s.nextRuns .correct ∨ s.nextRuns .run) ∧
    (t.rowsyn ≠ s.rowsyn → s.nextResets ∨ s.nextRuns .check ∨ s.nextRuns .run) ∧
    (t.colsyn ≠ s.colsyn → s.nextResets ∨ s.nextRuns .check ∨ s.nextRuns .run)

/-- Which inputs can change the framed unit's registers and NOISE_P (R23, R25, R30, R32, R34, R35, R37). -/
def Obligations.FramedUnitHasItsWriters : Prop :=
  ∀ s t : State, step s = .next t →
    (t.mode ≠ s.mode → s.nextResets ∨ s.nextWrites .ctrl) ∧
    (t.len ≠ s.len → s.nextResets ∨ s.nextWrites .len) ∧
    (t.noiseP ≠ s.noiseP → s.nextResets ∨ s.nextWrites .noiseP) ∧
    (t.cpar ≠ s.cpar → s.nextResets ∨ s.nextWrites .cpar ∨ s.nextRuns .build ∨ s.nextRuns .run) ∧
    (t.pclen ≠ s.pclen → s.nextResets ∨ s.nextWrites .pclen ∨ s.nextRuns .build ∨ s.nextRuns .run) ∧
    (t.rpar ≠ s.rpar → s.nextResets ∨ (∃ j, s.nextWrites (.rpar j)) ∨ s.nextRuns .build ∨ s.nextRuns .run) ∧
    (t.payload ≠ s.payload → s.nextResets ∨ (∃ i, s.nextWrites (.payload i)) ∨ (∃ f, s.nextRuns (.flip f)) ∨
      s.nextRuns .noise ∨ s.nextRuns .correct ∨ s.nextRuns .run)

/-! ## Consequences the spec draws (its rules marked "derived") -/

/-- The closed forms (40_codec.md section 4): after BUILD and after CHECK, the parity bits and the syndrome as XORs and
population counts. -/
def Obligations.ClosedFormsOfTheParityCode : Prop :=
  ∀ (s : State) (m : ParityMode), s.wf = true → s.LenValid → s.ModeIs m →
    (∀ t, exec .build s = .next t →
      t.cpar = xorRows s.payload s.rows ^^^ (if m = .odd then 0xFF#8 else 0x00#8) ∧
      ∀ i, i < s.rows → t.rpar.getLsbD i = (decide (ones (s.payload.read i) % 2 = 1) ^^ decide (m = .odd))) ∧
    (s.pclen.toNat = s.rows + 8 → ∀ t, exec .check s = .next t →
      t.colsyn = xorRows s.payload s.rows ^^^ s.cpar ^^^ (if m = .odd then 0xFF#8 else 0x00#8) ∧
      ∀ i, i < s.rows → t.rowsyn.getLsbD i =
        (decide (ones (s.payload.read i) % 2 = 1) ^^ s.rpar.getLsbD i ^^ decide (m = .odd)))

/-- Polarity does not matter for detection (40_codec.md section 4): CHECK over any payload `p`, after BUILD over another, flags the
rows and the columns in which an odd number of bits changed, in both modes. -/
def Obligations.SyndromeIsTheParityOfTheChange : Prop :=
  ∀ (s : State) (m : ParityMode) (p : Memory), s.wf = true → s.LenValid → s.ModeIs m →
    ∃ a t, exec .build s = .next a ∧ exec .check { a with payload := p } = .next t ∧ t.err = 0#4 ∧ t.synvalid = true ∧
      (∀ i, t.rowsyn.getLsbD i = (decide (i < s.rows) && decide (ones (p.read i ^^^ s.payload.read i) % 2 = 1))) ∧
      (∀ k, k < 8 → t.colsyn.getLsbD (7 - k) =
        decide ((List.range s.rows).countP (fun i => pbit p (8 * i + k) != pbit s.payload (8 * i + k)) % 2 = 1))

/-- No error, no flag (40_codec.md section 4): CHECK right after BUILD flags nothing. -/
def Obligations.UnchangedPayloadFlagsNothing : Prop :=
  ∀ (s : State) (m : ParityMode), s.wf = true → s.LenValid → s.ModeIs m →
    ∃ a t, exec .build s = .next a ∧ exec .check a = .next t ∧
      t.rowsList = [] ∧ t.colsList = [] ∧ t.rowsyn = 0#256 ∧ t.colsyn = 0#8 ∧ t.synvalid = true ∧ t.err = 0#4

/-- Detection of one flip (40_codec.md section 4): after BUILD, FLIP f and CHECK, the syndrome names row `f >> 3` and column
`f & 7` alone, SINGLE is 1 and LOC_BIT is `f`. -/
def Obligations.SingleFlipIsLocated : Prop :=
  ∀ (s : State) (m : ParityMode) (f : Nat), s.wf = true → s.LenValid → s.ModeIs m → f < s.len.toNat →
    ∃ a b t, exec .build s = .next a ∧ exec (.flip f) a = .next b ∧ exec .check b = .next t ∧
      t.rowsList = [f / 8] ∧ t.colsList = [f % 8] ∧ t.single = true ∧ t.locBit = f ∧
      (readRegister t .loc).extractLsb' 16 11 = BitVec.ofNat 11 f ∧ t.err = 0#4

/-- One flip is always corrected (42_corrector.md, consequences): BUILD, FLIP f, CHECK, CORRECT give back the payload that BUILD
saw, and count one correction. -/
def Obligations.SingleFlipIsCorrected : Prop :=
  ∀ (s : State) (m : ParityMode) (f : Nat), s.wf = true → s.LenValid → s.ModeIs m → f < s.len.toNat →
    ∃ a b c t, exec .build s = .next a ∧ exec (.flip f) a = .next b ∧ exec .check b = .next c ∧
      exec .correct c = .next t ∧ t.payload = s.payload ∧ t.ncorr = 1#4 ∧ t.synvalid = false ∧ t.err = 0#4

/-- What parity cannot see (40_codec.md section 4; 90_conflicts.md C3): when every payload bit is flipped, no row is flagged, and all
8 columns are flagged if `n` is odd, none if it is even. -/
def Obligations.EveryBitFlippedFlagsNoRow : Prop :=
  ∀ (s : State) (m : ParityMode) (p : Memory), s.wf = true → s.LenValid → s.ModeIs m →
    (∀ f, f < s.len.toNat → pbit p f = !pbit s.payload f) →
    ∃ a t, exec .build s = .next a ∧ exec .check { a with payload := p } = .next t ∧
      t.rowsyn = 0#256 ∧ t.colsyn = (if s.rows % 2 = 1 then 0xFF#8 else 0x00#8) ∧ t.err = 0#4

/-- Two flips in one row (40_codec.md section 4; 42_corrector.md, "Several flips"): no row and two columns are flagged, and CORRECT
changes nothing of the payload. -/
def Obligations.TwoFlipsInOneRowStayUncorrected : Prop :=
  ∀ (s : State) (m : ParityMode) (r c d : Nat), s.wf = true → s.LenValid → s.ModeIs m → r < s.rows → c < d → d < 8 →
    ∃ a b b' t u, exec .build s = .next a ∧ exec (.flip (8 * r + c)) a = .next b ∧ exec (.flip (8 * r + d)) b = .next b' ∧
      exec .check b' = .next t ∧ t.rowsList = [] ∧ t.colsList = [c, d] ∧
      exec .correct t = .next u ∧ u.payload = b'.payload ∧ u.ncorr = 0#4 ∧ u.err = 0#4

/-- Mode disagreement (40_codec.md section 4; 70_reset_and_hazards.md R252): CHECK in the other mode than BUILD flags every row
below `n` and every column, and CORRECT then flips the bits `(j, j)` for `j < min(n, 8)`. -/
def Obligations.ModeMismatchFlagsEverything : Prop :=
  ∀ (s : State) (v : Word) (m m' : ParityMode), s.wf = true → s.LenValid → s.ModeIs m →
    (writeRegister s .ctrl v).ModeIs m' → m ≠ m' →
    ∃ a t u, exec .build s = .next a ∧ exec .check (writeRegister a .ctrl v) = .next t ∧
      t.rowsList = List.range s.rows ∧ t.colsList = List.range 8 ∧ t.err = 0#4 ∧
      exec .correct t = .next u ∧ u.ncorr.toNat = min s.rows 8 ∧
      ∀ f, pbit u.payload f = (pbit s.payload f ^^ decide (f / 8 = f % 8 ∧ f / 8 < s.rows))

/-- A length change between BUILD and CHECK (70_reset_and_hazards.md, hazards): FRAMING_ERROR when the new LEN is no multiple of 8,
CONSISTENCY_ERROR when it is another valid one, and no error when it is the same. -/
def Obligations.LengthChangeIsCaughtByCheck : Prop :=
  ∀ (s : State) (m : ParityMode) (v : Word), s.wf = true → s.LenValid → s.ModeIs m →
    ∃ a t, exec .build s = .next a ∧ exec .check (writeRegister a .len v) = .next t ∧
      ((writeRegister a .len v).FramingBad → t.err = 1#4) ∧
      ((writeRegister a .len v).LenValid → v.extractLsb' 0 12 ≠ s.len → t.err = 3#4) ∧
      (v.extractLsb' 0 12 = s.len → t.err = 0#4 ∧ t.rowsyn = 0#256 ∧ t.colsyn = 0#8)

/-- The outcomes a model must admit (41_channel.md, the rule under "the set of payloads NOISE can produce"): with `P = 0` the payload
is the result of every sequence of draws and nothing else is; with `P >= 1` the results are exactly the payloads, in canonical form,
that agree from row `n` on. -/
def Obligations.NoiseOutcomesAreExactlyTheFlips : Prop :=
  ∀ s : State, s.wf = true → s.LenValid →
    (s.noiseP = 0#16 → ∀ ν, ∃ t, exec .noise { s with noise := ν } = .next t ∧ t.payload = s.payload) ∧
    (s.noiseP ≠ 0#16 → ∀ p : Memory,
      (∃ ν t, exec .noise { s with noise := ν } = .next t ∧ t.payload = p) ↔
        p.wf = true ∧ ∀ a, s.rows ≤ a → p.read a = s.payload.read a)

/-- RUN without noise and RUN with one flip drawn (43_control.md, the corner cases of RUN): the payload ends as it started; without
noise nothing is flagged and NCORR is 0; with one flip NCORR is 1. -/
def Obligations.RunRestoresUpToOneFlip : Prop :=
  ∀ (s : State) (m : ParityMode), s.wf = true → s.LenValid → s.ModeIs m →
    (s.noiseP = 0#16 → ∃ t, exec .run s = .next t ∧ t.payload = s.payload ∧ t.rowsyn = 0#256 ∧ t.colsyn = 0#8 ∧
      t.ncorr = 0#4 ∧ t.err = 0#4) ∧
    (∀ f, f < s.len.toNat → s.noise.answer f < s.noiseP →
      (∀ g, g < s.len.toNat → g ≠ f → ¬ s.noise.answer g < s.noiseP) →
      ∃ t, exec .run s = .next t ∧ t.payload = s.payload ∧ t.rowsList = [f / 8] ∧ t.colsList = [f % 8] ∧
        t.ncorr = 1#4 ∧ t.err = 0#4)

/-- Two FLIPs of the same bit restore the payload (41_channel.md R150, corner cases). -/
def Obligations.FlipTwiceRestoresThePayload : Prop :=
  ∀ (s : State) (f : Nat), s.wf = true → s.LenValid → f < s.len.toNat →
    ∃ a t, exec (.flip f) s = .next a ∧ exec (.flip f) a = .next t ∧ t.payload = s.payload ∧ t.err = 0#4

/-- A second CORRECT with no CHECK in between raises NO_SYNDROME and changes nothing else (42_corrector.md R170, corner cases). -/
def Obligations.SecondCorrectIsRefused : Prop :=
  ∀ s : State, ∃ t, exec .correct s = .next t ∧ exec .correct t = .next { t with err := 6#4 }

/-- The flipped bits are distinct (42_corrector.md, consequences): where SYNVALID is 1 and keeps its promise, CORRECT flips exactly
`npairs` bits of the payload, at most `min(n, 8)`, all below LEN. -/
def Obligations.CorrectFlipsExactlyNpairsBits : Prop :=
  ∀ s : State, s.wf = true → s.SyndromeCurrent → s.synvalid = true →
    (s.pairs.map fun rc => 8 * rc.1 + rc.2).Nodup ∧ s.npairs ≤ min s.rows 8 ∧
    (∀ rc ∈ s.pairs, 8 * rc.1 + rc.2 < s.len.toNat) ∧
    ∃ t, exec .correct s = .next t ∧
      (List.range s.len.toNat).countP (fun f => pbit t.payload f != pbit s.payload f) = s.npairs

/-- A parity-bit error is detected but never "corrected" (42_corrector.md, consequences): one wrong RPAR bit flags its row alone, one
wrong CPAR bit its column alone, and CORRECT changes nothing of the payload. -/
def Obligations.ParityBitErrorIsNotCorrected : Prop :=
  ∀ (s : State) (m : ParityMode), s.wf = true → s.LenValid → s.ModeIs m →
    (∀ r, r < s.rows → ∃ a t u, exec .build s = .next a ∧
      exec .check { a with rpar := a.rpar ^^^ BitVec.twoPow 256 r } = .next t ∧ t.rowsList = [r] ∧ t.colsList = [] ∧
      exec .correct t = .next u ∧ u.payload = s.payload ∧ u.ncorr = 0#4) ∧
    (∀ k, k < 8 → ∃ a t u, exec .build s = .next a ∧
      exec .check { a with cpar := a.cpar ^^^ BitVec.twoPow 8 (7 - k) } = .next t ∧ t.rowsList = [] ∧ t.colsList = [k] ∧
      exec .correct t = .next u ∧ u.payload = s.payload ∧ u.ncorr = 0#4)

/-! ## Reset (70_reset_and_hazards.md) -/

/-- R241: every field of the record at its reset value, for every capacity. -/
def Obligations.ResetValues : Prop :=
  ∀ n : Nat,
    (State.resetWith n).mode = 0#2 ∧ (State.resetWith n).len = 0#12 ∧
    (∀ i, (State.resetWith n).payload.read i = 0x00#8) ∧ (∀ i, (State.resetWith n).rpar.getLsbD i = false) ∧
    (State.resetWith n).cpar = 0x00#8 ∧ (State.resetWith n).pclen = 0#9 ∧ (State.resetWith n).noiseP = 0#16 ∧
    (∀ i, (State.resetWith n).rowsyn.getLsbD i = false) ∧ (State.resetWith n).colsyn = 0x00#8 ∧
    (State.resetWith n).synvalid = false ∧ (State.resetWith n).ncorr = 0#4 ∧ (State.resetWith n).err = 0#4 ∧
    readRegister (State.resetWith n) .param = 0x00#8 ++ 0x08#8 ++ BitVec.ofNat 16 n ∧
    (State.resetWith n).nRowErr = 0 ∧ (State.resetWith n).nColErr = 0 ∧ (State.resetWith n).single = false ∧
    (State.resetWith n).locValid = false ∧ readRegister (State.resetWith n) .loc = 0#32

/-- The reset event puts every field at its reset value at once; the capacity, the noise source and the host are not reached
(70_reset_and_hazards.md section 1). The event itself, and that the inputs still to come stay, are the model's own (log 5). -/
def Obligations.ResetEventRestoresEveryField : Prop :=
  ∀ (s : State) (rest : List Event), s.events = .reset :: rest →
    step s = .next { State.resetWith s.maxRows with noise := s.noise, events := rest, readData := s.readData }

/-- The commands right after reset (70_reset_and_hazards.md section 1): LENGTH_ERROR for those that use LEN, NO_SYNDROME for CORRECT,
success for NOP, for every capacity. -/
def Obligations.CommandsAfterReset : Prop :=
  ∀ (n f : Nat),
    exec .build (State.resetWith n) = .next { State.resetWith n with err := 4#4 } ∧
    exec (.flip f) (State.resetWith n) = .next { State.resetWith n with err := 4#4 } ∧
    exec .noise (State.resetWith n) = .next { State.resetWith n with err := 4#4 } ∧
    exec .check (State.resetWith n) = .next { State.resetWith n with err := 4#4 } ∧
    exec .run (State.resetWith n) = .next { State.resetWith n with err := 4#4 } ∧
    exec .correct (State.resetWith n) = .next { State.resetWith n with err := 6#4 } ∧
    exec .nop (State.resetWith n) = .next (State.resetWith n)

/-! ## Invariants -/

/-- Every step completes with a next state: no error of a command, no register access and no idle moment stops the block; with no
input left the step answers the same state. That nothing stops the block is the model's inference from R44, R76, R220 and R228
(log 11), and the idle step is the model's own (log 4). -/
def Obligations.EveryStepCompletes : Prop :=
  (∀ s : State, ∃ t, Sys2Proof.Machine.step s = .next t) ∧
  (∀ s : State, s.events = [] → Sys2Proof.Machine.step s = .next s)

/-- Every step keeps the storage well formed, and the capacity as it is: the payload in canonical form within the capacity, RPAR and
ROWSYN within it, ERR a produced code, NCORR at most 8 (R8, R20, R41, R210). -/
def Obligations.StepKeepsWellFormed : Prop :=
  ∀ s t : State, s.wf = true → Sys2Proof.Machine.step s = .next t → t.wf = true ∧ t.maxRows = s.maxRows

/-- Every step keeps the promise of SYNVALID: while it is 1, ROWSYN and COLSYN are the syndrome of the framed unit as it stands (R40,
R170). -/
def Obligations.StepKeepsSyndromeCurrent : Prop :=
  ∀ s t : State, s.wf = true → s.SyndromeCurrent → Sys2Proof.Machine.step s = .next t → t.SyndromeCurrent

/-- The reset state is well formed and keeps SYNVALID's promise, for every capacity of R8 and for the reference one. -/
def Obligations.ResetMeetsTheInvariants : Prop :=
  (∀ n, 1 ≤ n → n ≤ 256 → (State.resetWith n).wf = true ∧ (State.resetWith n).SyndromeCurrent) ∧
    State.reset.wf = true ∧ State.reset.SyndromeCurrent
end

