-- ==== Sys2Proof/Laws/Bits.lean ====
section
/-! SUPPORT. Bit masks built from a function, and the row words of the window. -/

namespace Sys2Proof.Machine

/-- Bit `i` of a mask built below `n` is the function's value there, and 0 elsewhere. -/
@[simp] theorem getLsbD_bitsBelow (w n : Nat) (f : Nat → Bool) (i : Nat) :
    (bitsBelow w n f).getLsbD i = (decide (i < w) && (decide (i < n) && f i)) := by
  induction n with
  | zero => simp [bitsBelow]
  | succ n ih =>
    rw [bitsBelow, BitVec.getLsbD_or, ih]
    by_cases hi : i = n
    · subst hi
      by_cases hf : f i = true <;> simp [hf, BitVec.getLsbD_twoPow]
    · have : decide (i ≤ n) = decide (i < n) := by simp; omega
      by_cases hf : f n = true <;> simp [hf, BitVec.getLsbD_twoPow, this, Ne.symm hi]

/-- A vector whose bits from `n` on are 0 is below `2 ^ n`. -/
theorem toNat_lt_of_bits {w : Nat} (v : BitVec w) (n : Nat) (h : ∀ i, n ≤ i → v.getLsbD i = false) :
    v.toNat < 2 ^ n := by
  apply Nat.lt_pow_two_of_testBit
  intro i hi
  simpa [BitVec.testBit_toNat] using h i hi

/-- A vector below `2 ^ n` has no bit from `n` on. -/
theorem getLsbD_of_toNat_lt {w : Nat} {v : BitVec w} {n i : Nat} (h : v.toNat < 2 ^ n) (hi : n ≤ i) :
    v.getLsbD i = false := by
  rw [← BitVec.testBit_toNat]
  exact Nat.testBit_lt_two_pow (lt_of_lt_of_le h (Nat.pow_le_pow_right (by norm_num) hi))

theorem bitsBelow_toNat_lt (w n : Nat) (f : Nat → Bool) : (bitsBelow w n f).toNat < 2 ^ n := by
  apply toNat_lt_of_bits
  intro i hi
  simp; omega

/-- Two masks with the same bits are equal. -/
theorem bitVec_ext {w : Nat} {u v : BitVec w} (h : ∀ i, i < w → u.getLsbD i = v.getLsbD i) : u = v :=
  BitVec.eq_of_getLsbD_eq h

/-- Two column masks with the same bits `7 - k` are equal. -/
theorem colMask_ext {u v : BitVec 8} (h : ∀ k, k < 8 → u.getLsbD (7 - k) = v.getLsbD (7 - k)) : u = v :=
  bitVec_ext fun i hi => by
    have := h (7 - i) (by omega)
    rwa [show 7 - (7 - i) = i by omega] at this

end Sys2Proof.Machine
end

