-- ==== Sys2Proof/Laws/Memory.lean ====
section
/-! SUPPORT. The payload memory: read after write, and the canonical form. -/

namespace Sys2Proof.Machine

@[simp] theorem Memory.read_nil (a : Nat) : Memory.read [] a = Memory.unlisted := rfl

theorem Memory.read_cons (b : Nat) (w : Byte) (m : Memory) (a : Nat) :
    Memory.read ((b, w) :: m) a = if a = b then w else Memory.read m a := rfl

@[simp] theorem Memory.wf_nil : Memory.wf [] = true := rfl

/-- The payload memory of the reset state is in canonical form. -/
theorem reset_memory_wf : State.reset.payload.wf = true := rfl

@[simp] theorem Memory.within_nil (n : Nat) : Memory.within [] n = true := rfl

theorem Memory.wf_cons (b : Nat) (w : Byte) (m : Memory) :
    Memory.wf ((b, w) :: m) = true ↔ w ≠ Memory.unlisted ∧ (∀ c ∈ m, b < c.1) ∧ Memory.wf m = true := by
  simp [Memory.wf, and_assoc]

theorem Memory.within_cons (b : Nat) (w : Byte) (m : Memory) (n : Nat) :
    Memory.within ((b, w) :: m) n = true ↔ b < n ∧ Memory.within m n = true := by
  simp [Memory.within]

/-- A row below every listed one reads as unlisted. -/
theorem Memory.read_of_lt {m : Memory} {a : Nat} (h : ∀ c ∈ m, a < c.1) : m.read a = Memory.unlisted := by
  induction m with
  | nil => rfl
  | cons c m ih =>
    have hc := h c (by simp)
    rw [Memory.read_cons, if_neg (by omega)]
    exact ih fun d hd => h d (by simp [hd])

/-- A write touches no other row. -/
@[simp] theorem Memory.read_write_of_ne (m : Memory) {a b : Nat} (v : Byte) (h : b ≠ a) :
    (m.write a v).read b = m.read b := by
  induction m with
  | nil => unfold Memory.write; split <;> simp [Memory.read_cons, h]
  | cons c m ih =>
    obtain ⟨c, w⟩ := c
    unfold Memory.write
    split
    · split <;> simp [Memory.read_cons, h]
    · split
      · next hac => subst hac; split <;> simp [Memory.read_cons, h]
      · simp [Memory.read_cons, ih]

/-- A read after a write to the same row gives the value written (in canonical form). -/
@[simp] theorem Memory.read_write_self {m : Memory} (hm : m.wf = true) (a : Nat) (v : Byte) :
    (m.write a v).read a = v := by
  induction m with
  | nil => unfold Memory.write; split <;> simp_all [Memory.read_cons]
  | cons c m ih =>
    obtain ⟨c, w⟩ := c
    obtain ⟨_, hlt, hwf⟩ := (Memory.wf_cons c w m).1 hm
    unfold Memory.write
    split
    · next h =>
      split
      · next hv =>
        rw [Memory.read_cons, if_neg (by omega), hv]
        exact Memory.read_of_lt fun d hd => by have := hlt d hd; omega
      · simp [Memory.read_cons]
    · split
      · next h =>
        split
        · next hv => rw [hv]; exact Memory.read_of_lt fun d hd => by have := hlt d hd; omega
        · simp [Memory.read_cons]
      · rw [Memory.read_cons, if_neg (by omega), ih hwf]

theorem Memory.mem_write {m : Memory} {a : Nat} {v : Byte} {c : Host.Cell} (h : c ∈ m.write a v) :
    c.1 = a ∨ c ∈ m := by
  induction m with
  | nil => unfold Memory.write at h; split at h <;> simp_all
  | cons d m ih =>
    obtain ⟨d, w⟩ := d
    unfold Memory.write at h
    split at h
    · split at h
      · exact .inr h
      · rcases List.mem_cons.1 h with rfl | h
        · exact .inl rfl
        · exact .inr h
    · split at h
      · split at h
        · exact .inr (List.mem_cons_of_mem _ h)
        · rcases List.mem_cons.1 h with rfl | h
          · exact .inl rfl
          · exact .inr (List.mem_cons_of_mem _ h)
      · rcases List.mem_cons.1 h with rfl | h
        · exact .inr (by simp)
        · exact (ih h).imp id (List.mem_cons_of_mem _)

/-- A write keeps the canonical form. -/
theorem Memory.wf_write {m : Memory} (hm : m.wf = true) (a : Nat) (v : Byte) : (m.write a v).wf = true := by
  induction m with
  | nil => unfold Memory.write; split <;> simp_all [Memory.wf]
  | cons c m ih =>
    obtain ⟨c, w⟩ := c
    obtain ⟨hw, hlt, hwf⟩ := (Memory.wf_cons c w m).1 hm
    unfold Memory.write
    split
    · next h =>
      split
      · exact hm
      · next hv =>
        refine (Memory.wf_cons _ _ _).2 ⟨hv, fun d hd => ?_, hm⟩
        rcases List.mem_cons.1 hd with rfl | hd
        · exact h
        · have := hlt d hd; omega
    · split
      · next h =>
        split
        · exact hwf
        · next hv => exact (Memory.wf_cons _ _ _).2 ⟨hv, fun d hd => by have := hlt d hd; omega, hwf⟩
      · next h1 h2 =>
        refine (Memory.wf_cons _ _ _).2 ⟨hw, fun d hd => ?_, ih hwf⟩
        rcases Memory.mem_write hd with hd | hd
        · omega
        · exact hlt d hd

/-- A write below `n` lists no row from `n` on. -/
theorem Memory.within_write {m : Memory} {n a : Nat} (hm : m.within n = true) (ha : a < n) (v : Byte) :
    (m.write a v).within n = true := by
  rw [Memory.within, List.all_eq_true] at hm ⊢
  intro c hc
  rcases Memory.mem_write hc with h | h
  · simp [h, ha]
  · exact hm c h

/-- A row that no entry lies below `n` for reads as unlisted from `n` on. -/
theorem Memory.read_of_within {m : Memory} {n a : Nat} (hm : m.within n = true) (ha : n ≤ a) :
    m.read a = Memory.unlisted := by
  induction m with
  | nil => rfl
  | cons c m ih =>
    obtain ⟨c, w⟩ := c
    obtain ⟨hc, hm⟩ := (Memory.within_cons c w m n).1 hm
    rw [Memory.read_cons, if_neg (by omega), ih hm]

/-- Equal memories are equal data: two canonical memories that read alike are the same list. -/
theorem Memory.ext {m m' : Memory} (hm : m.wf = true) (hm' : m'.wf = true) (h : ∀ a, m.read a = m'.read a) : m = m' := by
  induction m generalizing m' with
  | nil =>
    cases m' with
    | nil => rfl
    | cons d m' =>
      obtain ⟨d, x⟩ := d
      have := h d
      simp only [Memory.read_nil, Memory.read_cons, if_true] at this
      exact absurd this.symm ((Memory.wf_cons d x m').1 hm').1
  | cons c m ih =>
    obtain ⟨c, w⟩ := c
    obtain ⟨hw, hlt, hwf⟩ := (Memory.wf_cons c w m).1 hm
    cases m' with
    | nil =>
      have := h c
      simp only [Memory.read_nil, Memory.read_cons, if_true] at this
      exact absurd this hw
    | cons d m' =>
      obtain ⟨d, x⟩ := d
      obtain ⟨hx, hlt', hwf'⟩ := (Memory.wf_cons d x m').1 hm'
      have hcd : c = d := by
        rcases Nat.lt_trichotomy c d with hcd | hcd | hcd
        · have := h c
          rw [Memory.read_cons, if_pos rfl, Memory.read_of_lt (m := (d, x) :: m')] at this
          · exact absurd this hw
          · intro e he
            rcases List.mem_cons.1 he with rfl | he
            · exact hcd
            · have := hlt' e he; omega
        · exact hcd
        · have := h d
          rw [Memory.read_cons, if_neg (by omega), Memory.read_of_lt (m := m), Memory.read_cons, if_pos rfl] at this
          · exact absurd this.symm hx
          · intro e he; have := hlt e he; omega
      subst hcd
      have hwx : w = x := by simpa [Memory.read_cons] using h c
      subst hwx
      congr 1
      refine ih hwf hwf' fun a => ?_
      by_cases ha : a = c
      · rw [ha, Memory.read_of_lt hlt, Memory.read_of_lt hlt']
      · simpa [Memory.read_cons, ha] using h a

end Sys2Proof.Machine
end

