-- ==== Sys2Proof/Laws/Payload.lean ====
section
/-! SUPPORT. Payload bits: what an inversion changes, and that bits determine the memory. -/

namespace Sys2Proof.Machine

theorem pbit_eq_read (m : Memory) (a k : Nat) (hk : k < 8) : pbit m (8 * a + k) = (m.read a).getLsbD (7 - k) := by
  have h1 : (8 * a + k) / 8 = a := by omega
  have h2 : (8 * a + k) % 8 = k := by omega
  rw [pbit, h1, h2]

/-- Two memories with the same bits in a row have the same row. -/
theorem read_eq_of_pbit {m m' : Memory} {a : Nat} (h : ∀ k, k < 8 → pbit m (8 * a + k) = pbit m' (8 * a + k)) :
    m.read a = m'.read a :=
  colMask_ext fun k hk => by simpa [pbit_eq_read _ _ _ hk] using h k hk

theorem pbit_eq_of_read {m m' : Memory} {f : Nat} (h : m.read (f / 8) = m'.read (f / 8)) : pbit m f = pbit m' f := by
  rw [pbit, pbit, h]

/-- Two canonical memories with the same payload bits are equal. -/
theorem Memory.ext_pbit {m m' : Memory} (hm : m.wf = true) (hm' : m'.wf = true) (h : ∀ f, pbit m f = pbit m' f) :
    m = m' :=
  Memory.ext hm hm' fun _ => read_eq_of_pbit fun _ _ => h _

/-- Inverting bit `f` changes bit `f` alone. -/
theorem pbit_flipBit {m : Memory} (hm : m.wf = true) (f g : Nat) :
    pbit (flipBit m f) g = (pbit m g ^^ decide (g = f)) := by
  by_cases h : g / 8 = f / 8
  · rw [pbit, flipBit, h, Memory.read_write_self hm, BitVec.getLsbD_xor, BitVec.getLsbD_twoPow, pbit, h]
    congr 1
    simp only [← Bool.decide_and, decide_eq_decide]
    constructor
    · rintro ⟨-, h'⟩; omega
    · rintro rfl; omega
  · have hgf : g ≠ f := fun e => h (by rw [e])
    rw [pbit, flipBit, Memory.read_write_of_ne _ _ h, pbit]
    simp [hgf]

theorem read_flipBit_of_ne (m : Memory) {f a : Nat} (h : a ≠ f / 8) : (flipBit m f).read a = m.read a :=
  Memory.read_write_of_ne _ _ h

theorem wf_flipBit {m : Memory} (hm : m.wf = true) (f : Nat) : (flipBit m f).wf = true := Memory.wf_write hm _ _

theorem within_flipBit {m : Memory} {n f : Nat} (hm : m.within n = true) (hf : f / 8 < n) :
    (flipBit m f).within n = true := Memory.within_write hm hf _

/-- Inverting the same bit twice restores the memory. -/
theorem flipBit_flipBit {m : Memory} (hm : m.wf = true) (f : Nat) : flipBit (flipBit m f) f = m :=
  Memory.ext_pbit (wf_flipBit (wf_flipBit hm f) f) hm fun g => by
    simp [pbit_flipBit (wf_flipBit hm f), pbit_flipBit hm]

theorem wf_flips {m : Memory} (hm : m.wf = true) (fs : List Nat) : (fs.foldl flipBit m).wf = true := by
  induction fs generalizing m with
  | nil => exact hm
  | cons f fs ih => exact ih (wf_flipBit hm f)

theorem within_flips {m : Memory} {n : Nat} (hm : m.within n = true) (fs : List Nat) (h : ∀ f ∈ fs, f / 8 < n) :
    (fs.foldl flipBit m).within n = true := by
  induction fs generalizing m with
  | nil => exact hm
  | cons f fs ih => exact ih (within_flipBit hm (h f (by simp))) fun g hg => h g (by simp [hg])

/-- A row that none of the inverted bits lies in is unchanged. -/
theorem read_flips_of_not_mem (m : Memory) (fs : List Nat) {a : Nat} (h : ∀ f ∈ fs, a ≠ f / 8) :
    (fs.foldl flipBit m).read a = m.read a := by
  induction fs generalizing m with
  | nil => rfl
  | cons f fs ih =>
    rw [List.foldl_cons, ih _ fun g hg => h g (by simp [hg]), read_flipBit_of_ne _ (h f (by simp))]

/-- Inverting distinct bits, one after the other, changes exactly them. -/
theorem pbit_flips {m : Memory} (hm : m.wf = true) {fs : List Nat} (hfs : fs.Nodup) (g : Nat) :
    pbit (fs.foldl flipBit m) g = (pbit m g ^^ decide (g ∈ fs)) := by
  induction fs generalizing m with
  | nil => simp
  | cons f fs ih =>
    obtain ⟨hf, hfs⟩ := List.nodup_cons.1 hfs
    rw [List.foldl_cons, ih (wf_flipBit hm f) hfs, pbit_flipBit hm]
    by_cases hg : g = f
    · subst hg; simp [hf]
    · simp [hg]

end Sys2Proof.Machine
end

