-- ==== Sys2Proof/Laws/Noise.lean ====
section
/-! SUPPORT. The noise source and NOISE's loop. -/

namespace Sys2Proof.Machine

@[simp] theorem Noise.advance_zero (ν : Noise) : ν.advance 0 = ν := by simp [Noise.advance]

/-- Draws in a row add up. -/
@[simp] theorem Noise.advance_advance (ν : Noise) (j k : Nat) : (ν.advance j).advance k = ν.advance (j + k) := by
  simp [Noise.advance, Nat.add_assoc]

/-- The draws still to come after `j` draws are the later ones. -/
@[simp] theorem Noise.answer_advance (ν : Noise) (j k : Nat) : (ν.advance j).answer k = ν.answer (j + k) := by
  simp [Noise.advance, Noise.answer, Nat.add_assoc, List.getD_eq_getElem?_getD]

@[simp] theorem Noise.draw_fst (ν : Noise) : ν.draw.1 = ν.answer 0 := rfl

@[simp] theorem Noise.draw_snd (ν : Noise) : ν.draw.2 = ν.advance 1 := rfl

theorem transmit_succ (p : BitVec 16) (count f : Nat) (m : Memory) (ν : Noise) :
    transmit p (count + 1) f m ν =
      transmit p count (f + 1) (if ν.answer 0 < p then flipBit m f else m) (ν.advance 1) := rfl

/-- NOISE's loop requests one draw per bit. -/
@[simp] theorem transmit_noise (p : BitVec 16) (count f : Nat) (m : Memory) (ν : Noise) :
    (transmit p count f m ν).2 = ν.advance count := by
  induction count generalizing f m ν with
  | zero => simp [transmit]
  | succ n ih => rw [transmit_succ, ih, Noise.advance_advance, Nat.add_comm]

theorem wf_transmit (p : BitVec 16) (count f : Nat) {m : Memory} (hm : m.wf = true) (ν : Noise) :
    (transmit p count f m ν).1.wf = true := by
  induction count generalizing f m ν with
  | zero => exact hm
  | succ n ih =>
    rw [transmit_succ]
    apply ih
    split
    · exact wf_flipBit hm f
    · exact hm

/-- What NOISE's loop does to a bit: bit `f + j` is inverted when draw `j` is below `p`. -/
theorem pbit_transmit (p : BitVec 16) (count f : Nat) {m : Memory} (hm : m.wf = true) (ν : Noise) (g : Nat) :
    pbit (transmit p count f m ν).1 g =
      (pbit m g ^^ (decide (f ≤ g ∧ g < f + count) && decide (ν.answer (g - f) < p))) := by
  induction count generalizing f m ν with
  | zero => rw [decide_eq_false (by omega : ¬ (f ≤ g ∧ g < f + 0))]; simp [transmit]
  | succ n ih =>
    have hm' : (if ν.answer 0 < p then flipBit m f else m).wf = true := by
      split
      · exact wf_flipBit hm f
      · exact hm
    have hstep : pbit (if ν.answer 0 < p then flipBit m f else m) g =
        (pbit m g ^^ (decide (g = f) && decide (ν.answer 0 < p))) := by
      split
      · next h => simp [pbit_flipBit hm, h]
      · next h => simp [h]
    rw [transmit_succ, ih (f + 1) hm', hstep, Noise.answer_advance]
    by_cases hg : g = f
    · subst hg; simp
    · by_cases hfg : f ≤ g
      · have h1 : 1 + (g - (f + 1)) = g - f := by omega
        have h2 : (f + 1 ≤ g ∧ g < f + 1 + n) ↔ (f ≤ g ∧ g < f + (n + 1)) := by omega
        simp only [h1, h2, hg, decide_false, Bool.false_and, Bool.xor_false]
      · have h2 : ¬ (f + 1 ≤ g ∧ g < f + 1 + n) := by omega
        have h3 : ¬ (f ≤ g ∧ g < f + (n + 1)) := by omega
        rw [decide_eq_false h2, decide_eq_false h3]; simp [hg]

/-- NOISE's loop over the bits below `8 * n` touches no row from `n` on. -/
theorem read_transmit_of_le (p : BitVec 16) (count f n : Nat) {m : Memory} (hm : m.wf = true) (ν : Noise) {a : Nat}
    (h : f + count ≤ 8 * n) (ha : n ≤ a) : (transmit p count f m ν).1.read a = m.read a :=
  read_eq_of_pbit fun k hk => by
    have : ¬ (f ≤ 8 * a + k ∧ 8 * a + k < f + count) := by omega
    rw [pbit_transmit p count f hm, decide_eq_false this]; simp

theorem within_transmit (p : BitVec 16) (count f n : Nat) {m : Memory} (hm : m.within n = true) (ν : Noise)
    (h : f + count ≤ 8 * n) : (transmit p count f m ν).1.within n = true := by
  induction count generalizing f m ν with
  | zero => exact hm
  | succ k ih =>
    rw [transmit_succ]
    apply ih _ _ _ (by omega)
    split
    · exact within_flipBit hm (by omega)
    · exact hm

end Sys2Proof.Machine
end

