-- ==== Sys2Proof/Laws/Codec.lean ====
section
/-! SUPPORT. The parity function: counts, changes of one bit, and the masks BUILD and CHECK make of it. -/

namespace Sys2Proof.Machine

@[simp] theorem xorReduce_nil : xorReduce [] = false := rfl

@[simp] theorem xorReduce_cons (b : Bool) (bs : List Bool) : xorReduce (b :: bs) = (b ^^ xorReduce bs) := rfl

/-- The XOR of a group is 1 iff its count of set bits is odd (R120). -/
theorem xorReduce_eq_count {α : Type} (f : α → Bool) (l : List α) :
    xorReduce (l.map f) = decide (l.countP f % 2 = 1) := by
  induction l with
  | nil => simp
  | cons a l ih =>
    rw [List.map_cons, xorReduce_cons, ih, List.countP_cons]
    by_cases h : f a = true
    · simp only [h, if_true, Bool.true_xor]
      rcases Nat.mod_two_eq_zero_or_one (l.countP f) with h2 | h2 <;> simp [h2, Nat.add_mod]
    · simp [h]

/-- The XOR of a group of differences is the difference of the XORs. -/
theorem xorReduce_map_xor {α : Type} (f g : α → Bool) (l : List α) :
    xorReduce (l.map fun a => f a ^^ g a) = (xorReduce (l.map f) ^^ xorReduce (l.map g)) := by
  induction l with
  | nil => rfl
  | cons a l ih =>
    simp only [List.map_cons, xorReduce_cons, ih]
    cases f a <;> cases g a <;> simp

theorem xorReduce_append (l l' : List Bool) : xorReduce (l ++ l') = (xorReduce l ^^ xorReduce l') := by
  induction l with
  | nil => simp
  | cons a l ih => simp [ih]

/-- The XOR over a group in which exactly the member `a` is set. -/
theorem xorReduce_indicator {α : Type} [DecidableEq α] {l : List α} (hl : l.Nodup) (a : α) :
    xorReduce (l.map fun x => decide (x = a)) = decide (a ∈ l) := by
  induction l with
  | nil => simp
  | cons b l ih =>
    obtain ⟨hb, hl⟩ := List.nodup_cons.1 hl
    rw [List.map_cons, xorReduce_cons, ih hl]
    by_cases h : b = a
    · subst h; simp [hb]
    · simp [h, Ne.symm h]

/-- EVEN is the XOR of the group, ODD its complement (R120). -/
theorem par_eq (m : ParityMode) (bits : List Bool) : par m bits = (xorReduce bits ^^ decide (m = .odd)) := by
  cases m <;> simp [par]

/-- The row parity by the row's byte (R121). -/
theorem rowParity_eq_read (m : ParityMode) (p : Memory) (i : Nat) :
    rowParity m p i = (xorReduce ((List.range 8).map fun k => (p.read i).getLsbD (7 - k)) ^^ decide (m = .odd)) := by
  rw [rowParity, par_eq]
  congr 2
  exact List.map_congr_left fun k hk => pbit_eq_read p i k (List.mem_range.1 hk)

/-- The bits of a byte in stream order have the byte's population count (R127). -/
theorem xorReduce_byte (b : Byte) :
    xorReduce ((List.range 8).map fun k => b.getLsbD (7 - k)) = decide (ones b % 2 = 1) := by
  rw [xorReduce_eq_count, ones]
  congr 2
  rw [show (List.range 8) = [0, 1, 2, 3, 4, 5, 6, 7] from rfl]
  simp only [List.countP_cons, List.countP_nil, Nat.reduceSub]
  omega

/-- The row parity by the row's population count (R127). -/
theorem rowParity_eq_ones (m : ParityMode) (p : Memory) (i : Nat) :
    rowParity m p i = (decide (ones (p.read i) % 2 = 1) ^^ decide (m = .odd)) := by
  rw [rowParity_eq_read, xorReduce_byte]

/-- The parity of a XOR of bytes is the XOR of their parities. -/
theorem ones_xor_parity (a b : Byte) :
    decide (ones (a ^^^ b) % 2 = 1) = (decide (ones a % 2 = 1) ^^ decide (ones b % 2 = 1)) := by
  simp only [← xorReduce_byte, BitVec.getLsbD_xor, xorReduce_map_xor]

/-- The column parity by the column's bit in each row (R122). -/
theorem colParity_eq (m : ParityMode) (p : Memory) (n k : Nat) :
    colParity m p n k = (xorReduce ((List.range n).map fun i => pbit p (8 * i + k)) ^^ decide (m = .odd)) := by
  rw [colParity, par_eq]
  simp only [Nat.add_comm k]

/-- The row parity of one row depends on that row alone. -/
theorem rowParity_congr (m : ParityMode) {p q : Memory} {i : Nat} (h : p.read i = q.read i) :
    rowParity m p i = rowParity m q i := by
  rw [rowParity_eq_ones, rowParity_eq_ones, h]

/-- The column parities over `n` rows depend on those rows alone. -/
theorem colParity_congr (m : ParityMode) {p q : Memory} {n : Nat} (k : Nat)
    (h : ∀ i, i < n → pbit p (8 * i + k) = pbit q (8 * i + k)) : colParity m p n k = colParity m q n k := by
  rw [colParity_eq, colParity_eq]
  congr 2
  exact List.map_congr_left fun i hi => h i (List.mem_range.1 hi)

/-- The parity of a row over two payloads and modes differs by the parity of the change and by the modes (R128, R132). -/
theorem rowParity_xor (m m' : ParityMode) (p q : Memory) (i : Nat) :
    (rowParity m p i ^^ rowParity m' q i) =
      (decide (ones (p.read i ^^^ q.read i) % 2 = 1) ^^ decide (m ≠ m')) := by
  rw [rowParity_eq_ones, rowParity_eq_ones, ones_xor_parity]
  generalize decide (ones (p.read i) % 2 = 1) = a
  generalize decide (ones (q.read i) % 2 = 1) = b
  cases m <;> cases m' <;> cases a <;> cases b <;> rfl

/-- The parity of a column over two payloads and modes differs by the number of changed bits and by the modes (R128, R132). -/
theorem colParity_xor (m m' : ParityMode) (p q : Memory) (n k : Nat) :
    (colParity m p n k ^^ colParity m' q n k) =
      (decide ((List.range n).countP (fun i => pbit p (8 * i + k) != pbit q (8 * i + k)) % 2 = 1) ^^
        decide (m ≠ m')) := by
  have h : (fun i => pbit p (8 * i + k) != pbit q (8 * i + k)) =
      fun i => pbit p (8 * i + k) ^^ pbit q (8 * i + k) := by
    funext i; cases pbit p (8 * i + k) <;> cases pbit q (8 * i + k) <;> rfl
  rw [h, ← xorReduce_eq_count, xorReduce_map_xor, colParity_eq, colParity_eq]
  generalize xorReduce ((List.range n).map fun i => pbit p (8 * i + k)) = a
  generalize xorReduce ((List.range n).map fun i => pbit q (8 * i + k)) = b
  cases m <;> cases m' <;> cases a <;> cases b <;> rfl

/-- Inverting one bit changes the parity of its row alone. -/
theorem rowParity_flipBit (m : ParityMode) {p : Memory} (hp : p.wf = true) (f i : Nat) :
    rowParity m (flipBit p f) i = (rowParity m p i ^^ decide (i = f / 8)) := by
  rw [rowParity, rowParity, par_eq, par_eq]
  simp only [pbit_flipBit hp, xorReduce_map_xor]
  have h : xorReduce ((List.range 8).map fun k => decide (8 * i + k = f)) = decide (i = f / 8) := by
    by_cases hi : i = f / 8
    · have e : (fun k => decide (8 * i + k = f)) = fun k => decide (k = f % 8) := by
        funext k; rw [decide_eq_decide]; omega
      rw [e, xorReduce_indicator List.nodup_range]
      simp [hi]; omega
    · rw [xorReduce_eq_count, List.countP_eq_zero.2]
      · simp [hi]
      · intro k hk; have := List.mem_range.1 hk; simp; omega
  rw [h]
  generalize xorReduce ((List.range 8).map fun k => pbit p (8 * i + k)) = a
  cases a <;> cases m <;> simp

/-- Inverting one bit of the first `n` rows changes the parity of its column alone. -/
theorem colParity_flipBit (m : ParityMode) {p : Memory} (hp : p.wf = true) {f n k : Nat} (hf : f / 8 < n) (hk : k < 8) :
    colParity m (flipBit p f) n k = (colParity m p n k ^^ decide (k = f % 8)) := by
  rw [colParity_eq, colParity_eq]
  simp only [pbit_flipBit hp, xorReduce_map_xor]
  have h : xorReduce ((List.range n).map fun i => decide (8 * i + k = f)) = decide (k = f % 8) := by
    by_cases hi : k = f % 8
    · have e : (fun i => decide (8 * i + k = f)) = fun i => decide (i = f / 8) := by
        funext i; rw [decide_eq_decide]; omega
      rw [e, xorReduce_indicator List.nodup_range]
      simp [hi, hf]
    · rw [xorReduce_eq_count, List.countP_eq_zero.2]
      · simp [hi]
      · intro i _; simp; omega
  rw [h]
  generalize xorReduce ((List.range n).map fun i => pbit p (8 * i + k)) = a
  cases a <;> cases m <;> simp

/-- RPAR after BUILD (R123). -/
@[simp] theorem getLsbD_rowParities (m : ParityMode) (p : Memory) {n : Nat} (hn : n ≤ 256) (i : Nat) :
    (rowParities m p n).getLsbD i = (decide (i < n) && rowParity m p i) := by
  rw [rowParities, getLsbD_bitsBelow]
  by_cases hi : i < n
  · simp [hi, (by omega : i < 256)]
  · simp [hi]

/-- CPAR after BUILD (R123). -/
theorem getLsbD_colParities (m : ParityMode) (p : Memory) (n : Nat) {k : Nat} (hk : k < 8) :
    (colParities m p n).getLsbD (7 - k) = colParity m p n k := by
  rw [colParities, getLsbD_bitsBelow, show 7 - (7 - k) = k by omega]
  simp; omega

/-- Bit `b` of the XOR of the first `n` rows (R127). -/
theorem getLsbD_xorRows (p : Memory) (n b : Nat) :
    (xorRows p n).getLsbD b = xorReduce ((List.range n).map fun i => (p.read i).getLsbD b) := by
  induction n with
  | zero => simp [xorRows]
  | succ n ih =>
    rw [xorRows, BitVec.getLsbD_xor, ih, List.range_succ, List.map_append, xorReduce_append]
    simp

/-- The column parities are the XOR of the rows, complemented under ODD (R127). -/
theorem colParities_eq_xorRows (m : ParityMode) (p : Memory) (n : Nat) :
    colParities m p n = xorRows p n ^^^ (if m = .odd then 0xFF#8 else 0x00#8) := by
  refine colMask_ext fun k hk => ?_
  rw [getLsbD_colParities m p n hk, BitVec.getLsbD_xor, getLsbD_xorRows, colParity_eq]
  congr 1
  · congr 1
    exact List.map_congr_left fun i _ => pbit_eq_read p i k hk
  · cases m
    · simp
    · interval_cases k <;> rfl

end Sys2Proof.Machine
end

