-- ==== Sys2Proof/Laws/State.lean ====
section
/-! SUPPORT. What each update of the state does to each field, and to the values derived from the fields. -/

namespace Sys2Proof.Machine

/-! ## After raising an error (R216) -/

@[simp] theorem raiseError_maxRows (e : CommandError) (s : State) : (raiseError e s).maxRows = s.maxRows := rfl
@[simp] theorem raiseError_mode (e : CommandError) (s : State) : (raiseError e s).mode = s.mode := rfl
@[simp] theorem raiseError_len (e : CommandError) (s : State) : (raiseError e s).len = s.len := rfl
@[simp] theorem raiseError_payload (e : CommandError) (s : State) : (raiseError e s).payload = s.payload := rfl
@[simp] theorem raiseError_rpar (e : CommandError) (s : State) : (raiseError e s).rpar = s.rpar := rfl
@[simp] theorem raiseError_cpar (e : CommandError) (s : State) : (raiseError e s).cpar = s.cpar := rfl
@[simp] theorem raiseError_pclen (e : CommandError) (s : State) : (raiseError e s).pclen = s.pclen := rfl
@[simp] theorem raiseError_noiseP (e : CommandError) (s : State) : (raiseError e s).noiseP = s.noiseP := rfl
@[simp] theorem raiseError_rowsyn (e : CommandError) (s : State) : (raiseError e s).rowsyn = s.rowsyn := rfl
@[simp] theorem raiseError_colsyn (e : CommandError) (s : State) : (raiseError e s).colsyn = s.colsyn := rfl
@[simp] theorem raiseError_synvalid (e : CommandError) (s : State) : (raiseError e s).synvalid = s.synvalid := rfl
@[simp] theorem raiseError_ncorr (e : CommandError) (s : State) : (raiseError e s).ncorr = s.ncorr := rfl
@[simp] theorem raiseError_err (e : CommandError) (s : State) : (raiseError e s).err = e.code := rfl
@[simp] theorem raiseError_noise (e : CommandError) (s : State) : (raiseError e s).noise = s.noise := rfl
@[simp] theorem raiseError_events (e : CommandError) (s : State) : (raiseError e s).events = s.events := rfl
@[simp] theorem raiseError_readData (e : CommandError) (s : State) : (raiseError e s).readData = s.readData := rfl
@[simp] theorem raiseError_rows (e : CommandError) (s : State) : (raiseError e s).rows = s.rows := rfl
@[simp] theorem raiseError_rowsList (e : CommandError) (s : State) : (raiseError e s).rowsList = s.rowsList := rfl
@[simp] theorem raiseError_colsList (e : CommandError) (s : State) : (raiseError e s).colsList = s.colsList := rfl
@[simp] theorem raiseError_nRowErr (e : CommandError) (s : State) : (raiseError e s).nRowErr = s.nRowErr := rfl
@[simp] theorem raiseError_nColErr (e : CommandError) (s : State) : (raiseError e s).nColErr = s.nColErr := rfl
@[simp] theorem raiseError_single (e : CommandError) (s : State) : (raiseError e s).single = s.single := rfl
@[simp] theorem raiseError_locValid (e : CommandError) (s : State) : (raiseError e s).locValid = s.locValid := rfl
@[simp] theorem raiseError_npairs (e : CommandError) (s : State) : (raiseError e s).npairs = s.npairs := rfl
@[simp] theorem raiseError_pairs (e : CommandError) (s : State) : (raiseError e s).pairs = s.pairs := rfl

/-! ## After ending with success (R42) -/

@[simp] theorem succeed_maxRows (s : State) : (succeed s).maxRows = s.maxRows := rfl
@[simp] theorem succeed_mode (s : State) : (succeed s).mode = s.mode := rfl
@[simp] theorem succeed_len (s : State) : (succeed s).len = s.len := rfl
@[simp] theorem succeed_payload (s : State) : (succeed s).payload = s.payload := rfl
@[simp] theorem succeed_rpar (s : State) : (succeed s).rpar = s.rpar := rfl
@[simp] theorem succeed_cpar (s : State) : (succeed s).cpar = s.cpar := rfl
@[simp] theorem succeed_pclen (s : State) : (succeed s).pclen = s.pclen := rfl
@[simp] theorem succeed_noiseP (s : State) : (succeed s).noiseP = s.noiseP := rfl
@[simp] theorem succeed_rowsyn (s : State) : (succeed s).rowsyn = s.rowsyn := rfl
@[simp] theorem succeed_colsyn (s : State) : (succeed s).colsyn = s.colsyn := rfl
@[simp] theorem succeed_synvalid (s : State) : (succeed s).synvalid = s.synvalid := rfl
@[simp] theorem succeed_ncorr (s : State) : (succeed s).ncorr = s.ncorr := rfl
@[simp] theorem succeed_err (s : State) : (succeed s).err = 0#4 := rfl
@[simp] theorem succeed_noise (s : State) : (succeed s).noise = s.noise := rfl
@[simp] theorem succeed_events (s : State) : (succeed s).events = s.events := rfl
@[simp] theorem succeed_readData (s : State) : (succeed s).readData = s.readData := rfl
@[simp] theorem succeed_rows (s : State) : (succeed s).rows = s.rows := rfl
@[simp] theorem succeed_rowsList (s : State) : (succeed s).rowsList = s.rowsList := rfl
@[simp] theorem succeed_colsList (s : State) : (succeed s).colsList = s.colsList := rfl
@[simp] theorem succeed_nRowErr (s : State) : (succeed s).nRowErr = s.nRowErr := rfl
@[simp] theorem succeed_nColErr (s : State) : (succeed s).nColErr = s.nColErr := rfl
@[simp] theorem succeed_single (s : State) : (succeed s).single = s.single := rfl
@[simp] theorem succeed_locValid (s : State) : (succeed s).locValid = s.locValid := rfl
@[simp] theorem succeed_npairs (s : State) : (succeed s).npairs = s.npairs := rfl
@[simp] theorem succeed_pairs (s : State) : (succeed s).pairs = s.pairs := rfl

/-! ## After BUILD's stage (R123) -/

@[simp] theorem buildStage_maxRows (m : ParityMode) (s : State) : (buildStage m s).maxRows = s.maxRows := rfl
@[simp] theorem buildStage_mode (m : ParityMode) (s : State) : (buildStage m s).mode = s.mode := rfl
@[simp] theorem buildStage_len (m : ParityMode) (s : State) : (buildStage m s).len = s.len := rfl
@[simp] theorem buildStage_payload (m : ParityMode) (s : State) : (buildStage m s).payload = s.payload := rfl
@[simp] theorem buildStage_rpar (m : ParityMode) (s : State) :
    (buildStage m s).rpar = rowParities m s.payload s.rows := rfl
@[simp] theorem buildStage_cpar (m : ParityMode) (s : State) :
    (buildStage m s).cpar = colParities m s.payload s.rows := rfl
@[simp] theorem buildStage_pclen (m : ParityMode) (s : State) :
    (buildStage m s).pclen = BitVec.ofNat 9 (s.rows + 8) := rfl
@[simp] theorem buildStage_noiseP (m : ParityMode) (s : State) : (buildStage m s).noiseP = s.noiseP := rfl
@[simp] theorem buildStage_rowsyn (m : ParityMode) (s : State) : (buildStage m s).rowsyn = s.rowsyn := rfl
@[simp] theorem buildStage_colsyn (m : ParityMode) (s : State) : (buildStage m s).colsyn = s.colsyn := rfl
@[simp] theorem buildStage_synvalid (m : ParityMode) (s : State) : (buildStage m s).synvalid = false := rfl
@[simp] theorem buildStage_ncorr (m : ParityMode) (s : State) : (buildStage m s).ncorr = s.ncorr := rfl
@[simp] theorem buildStage_err (m : ParityMode) (s : State) : (buildStage m s).err = s.err := rfl
@[simp] theorem buildStage_noise (m : ParityMode) (s : State) : (buildStage m s).noise = s.noise := rfl
@[simp] theorem buildStage_events (m : ParityMode) (s : State) : (buildStage m s).events = s.events := rfl
@[simp] theorem buildStage_readData (m : ParityMode) (s : State) : (buildStage m s).readData = s.readData := rfl
@[simp] theorem buildStage_rows (m : ParityMode) (s : State) : (buildStage m s).rows = s.rows := rfl
@[simp] theorem buildStage_rowsList (m : ParityMode) (s : State) : (buildStage m s).rowsList = s.rowsList := rfl
@[simp] theorem buildStage_colsList (m : ParityMode) (s : State) : (buildStage m s).colsList = s.colsList := rfl
@[simp] theorem buildStage_nRowErr (m : ParityMode) (s : State) : (buildStage m s).nRowErr = s.nRowErr := rfl
@[simp] theorem buildStage_nColErr (m : ParityMode) (s : State) : (buildStage m s).nColErr = s.nColErr := rfl
@[simp] theorem buildStage_single (m : ParityMode) (s : State) : (buildStage m s).single = s.single := rfl
@[simp] theorem buildStage_locValid (m : ParityMode) (s : State) : (buildStage m s).locValid = s.locValid := rfl
@[simp] theorem buildStage_npairs (m : ParityMode) (s : State) : (buildStage m s).npairs = s.npairs := rfl
@[simp] theorem buildStage_pairs (m : ParityMode) (s : State) : (buildStage m s).pairs = s.pairs := rfl

/-! ## After CHECK's stage (R124) -/

@[simp] theorem checkStage_maxRows (m : ParityMode) (s : State) : (checkStage m s).maxRows = s.maxRows := rfl
@[simp] theorem checkStage_mode (m : ParityMode) (s : State) : (checkStage m s).mode = s.mode := rfl
@[simp] theorem checkStage_len (m : ParityMode) (s : State) : (checkStage m s).len = s.len := rfl
@[simp] theorem checkStage_payload (m : ParityMode) (s : State) : (checkStage m s).payload = s.payload := rfl
@[simp] theorem checkStage_rpar (m : ParityMode) (s : State) : (checkStage m s).rpar = s.rpar := rfl
@[simp] theorem checkStage_cpar (m : ParityMode) (s : State) : (checkStage m s).cpar = s.cpar := rfl
@[simp] theorem checkStage_pclen (m : ParityMode) (s : State) : (checkStage m s).pclen = s.pclen := rfl
@[simp] theorem checkStage_noiseP (m : ParityMode) (s : State) : (checkStage m s).noiseP = s.noiseP := rfl
@[simp] theorem checkStage_rowsyn (m : ParityMode) (s : State) :
    (checkStage m s).rowsyn = bitsBelow 256 s.rows fun i => rowParity m s.payload i ^^ s.rpar.getLsbD i := rfl
@[simp] theorem checkStage_colsyn (m : ParityMode) (s : State) :
    (checkStage m s).colsyn = colParities m s.payload s.rows ^^^ s.cpar := rfl
@[simp] theorem checkStage_synvalid (m : ParityMode) (s : State) : (checkStage m s).synvalid = true := rfl
@[simp] theorem checkStage_ncorr (m : ParityMode) (s : State) : (checkStage m s).ncorr = s.ncorr := rfl
@[simp] theorem checkStage_err (m : ParityMode) (s : State) : (checkStage m s).err = s.err := rfl
@[simp] theorem checkStage_noise (m : ParityMode) (s : State) : (checkStage m s).noise = s.noise := rfl
@[simp] theorem checkStage_events (m : ParityMode) (s : State) : (checkStage m s).events = s.events := rfl
@[simp] theorem checkStage_readData (m : ParityMode) (s : State) : (checkStage m s).readData = s.readData := rfl
@[simp] theorem checkStage_rows (m : ParityMode) (s : State) : (checkStage m s).rows = s.rows := rfl

/-! ## After NOISE's stage (R151) -/

@[simp] theorem transmitStage_maxRows (s : State) : (transmitStage s).maxRows = s.maxRows := rfl
@[simp] theorem transmitStage_mode (s : State) : (transmitStage s).mode = s.mode := rfl
@[simp] theorem transmitStage_len (s : State) : (transmitStage s).len = s.len := rfl
@[simp] theorem transmitStage_payload (s : State) :
    (transmitStage s).payload = (transmit s.noiseP s.len.toNat 0 s.payload s.noise).1 := rfl
@[simp] theorem transmitStage_rpar (s : State) : (transmitStage s).rpar = s.rpar := rfl
@[simp] theorem transmitStage_cpar (s : State) : (transmitStage s).cpar = s.cpar := rfl
@[simp] theorem transmitStage_pclen (s : State) : (transmitStage s).pclen = s.pclen := rfl
@[simp] theorem transmitStage_noiseP (s : State) : (transmitStage s).noiseP = s.noiseP := rfl
@[simp] theorem transmitStage_rowsyn (s : State) : (transmitStage s).rowsyn = s.rowsyn := rfl
@[simp] theorem transmitStage_colsyn (s : State) : (transmitStage s).colsyn = s.colsyn := rfl
@[simp] theorem transmitStage_synvalid (s : State) : (transmitStage s).synvalid = false := rfl
@[simp] theorem transmitStage_ncorr (s : State) : (transmitStage s).ncorr = s.ncorr := rfl
@[simp] theorem transmitStage_err (s : State) : (transmitStage s).err = s.err := rfl
@[simp] theorem transmitStage_noise (s : State) :
    (transmitStage s).noise = (transmit s.noiseP s.len.toNat 0 s.payload s.noise).2 := rfl
@[simp] theorem transmitStage_events (s : State) : (transmitStage s).events = s.events := rfl
@[simp] theorem transmitStage_readData (s : State) : (transmitStage s).readData = s.readData := rfl
@[simp] theorem transmitStage_rows (s : State) : (transmitStage s).rows = s.rows := rfl
@[simp] theorem transmitStage_rowsList (s : State) : (transmitStage s).rowsList = s.rowsList := rfl
@[simp] theorem transmitStage_colsList (s : State) : (transmitStage s).colsList = s.colsList := rfl
@[simp] theorem transmitStage_nRowErr (s : State) : (transmitStage s).nRowErr = s.nRowErr := rfl
@[simp] theorem transmitStage_nColErr (s : State) : (transmitStage s).nColErr = s.nColErr := rfl
@[simp] theorem transmitStage_single (s : State) : (transmitStage s).single = s.single := rfl
@[simp] theorem transmitStage_locValid (s : State) : (transmitStage s).locValid = s.locValid := rfl
@[simp] theorem transmitStage_npairs (s : State) : (transmitStage s).npairs = s.npairs := rfl
@[simp] theorem transmitStage_pairs (s : State) : (transmitStage s).pairs = s.pairs := rfl

/-! ## After FLIP's stage (R150) -/

@[simp] theorem flipStage_maxRows (f : Nat) (s : State) : (flipStage f s).maxRows = s.maxRows := rfl
@[simp] theorem flipStage_mode (f : Nat) (s : State) : (flipStage f s).mode = s.mode := rfl
@[simp] theorem flipStage_len (f : Nat) (s : State) : (flipStage f s).len = s.len := rfl
@[simp] theorem flipStage_payload (f : Nat) (s : State) : (flipStage f s).payload = flipBit s.payload f := rfl
@[simp] theorem flipStage_rpar (f : Nat) (s : State) : (flipStage f s).rpar = s.rpar := rfl
@[simp] theorem flipStage_cpar (f : Nat) (s : State) : (flipStage f s).cpar = s.cpar := rfl
@[simp] theorem flipStage_pclen (f : Nat) (s : State) : (flipStage f s).pclen = s.pclen := rfl
@[simp] theorem flipStage_noiseP (f : Nat) (s : State) : (flipStage f s).noiseP = s.noiseP := rfl
@[simp] theorem flipStage_rowsyn (f : Nat) (s : State) : (flipStage f s).rowsyn = s.rowsyn := rfl
@[simp] theorem flipStage_colsyn (f : Nat) (s : State) : (flipStage f s).colsyn = s.colsyn := rfl
@[simp] theorem flipStage_synvalid (f : Nat) (s : State) : (flipStage f s).synvalid = false := rfl
@[simp] theorem flipStage_ncorr (f : Nat) (s : State) : (flipStage f s).ncorr = s.ncorr := rfl
@[simp] theorem flipStage_err (f : Nat) (s : State) : (flipStage f s).err = s.err := rfl
@[simp] theorem flipStage_noise (f : Nat) (s : State) : (flipStage f s).noise = s.noise := rfl
@[simp] theorem flipStage_events (f : Nat) (s : State) : (flipStage f s).events = s.events := rfl
@[simp] theorem flipStage_readData (f : Nat) (s : State) : (flipStage f s).readData = s.readData := rfl
@[simp] theorem flipStage_rows (f : Nat) (s : State) : (flipStage f s).rows = s.rows := rfl
@[simp] theorem flipStage_rowsList (f : Nat) (s : State) : (flipStage f s).rowsList = s.rowsList := rfl
@[simp] theorem flipStage_colsList (f : Nat) (s : State) : (flipStage f s).colsList = s.colsList := rfl
@[simp] theorem flipStage_nRowErr (f : Nat) (s : State) : (flipStage f s).nRowErr = s.nRowErr := rfl
@[simp] theorem flipStage_nColErr (f : Nat) (s : State) : (flipStage f s).nColErr = s.nColErr := rfl
@[simp] theorem flipStage_single (f : Nat) (s : State) : (flipStage f s).single = s.single := rfl
@[simp] theorem flipStage_locValid (f : Nat) (s : State) : (flipStage f s).locValid = s.locValid := rfl
@[simp] theorem flipStage_npairs (f : Nat) (s : State) : (flipStage f s).npairs = s.npairs := rfl
@[simp] theorem flipStage_pairs (f : Nat) (s : State) : (flipStage f s).pairs = s.pairs := rfl

/-! ## After CORRECT's stage (R170) -/

@[simp] theorem correctStage_maxRows (s : State) : (correctStage s).maxRows = s.maxRows := rfl
@[simp] theorem correctStage_mode (s : State) : (correctStage s).mode = s.mode := rfl
@[simp] theorem correctStage_len (s : State) : (correctStage s).len = s.len := rfl
@[simp] theorem correctStage_payload (s : State) :
    (correctStage s).payload = (s.pairs.map flatIndex).foldl flipBit s.payload := rfl
@[simp] theorem correctStage_rpar (s : State) : (correctStage s).rpar = s.rpar := rfl
@[simp] theorem correctStage_cpar (s : State) : (correctStage s).cpar = s.cpar := rfl
@[simp] theorem correctStage_pclen (s : State) : (correctStage s).pclen = s.pclen := rfl
@[simp] theorem correctStage_noiseP (s : State) : (correctStage s).noiseP = s.noiseP := rfl
@[simp] theorem correctStage_rowsyn (s : State) : (correctStage s).rowsyn = s.rowsyn := rfl
@[simp] theorem correctStage_colsyn (s : State) : (correctStage s).colsyn = s.colsyn := rfl
@[simp] theorem correctStage_synvalid (s : State) : (correctStage s).synvalid = false := rfl
@[simp] theorem correctStage_ncorr (s : State) : (correctStage s).ncorr = BitVec.ofNat 4 s.npairs := rfl
@[simp] theorem correctStage_err (s : State) : (correctStage s).err = s.err := rfl
@[simp] theorem correctStage_noise (s : State) : (correctStage s).noise = s.noise := rfl
@[simp] theorem correctStage_events (s : State) : (correctStage s).events = s.events := rfl
@[simp] theorem correctStage_readData (s : State) : (correctStage s).readData = s.readData := rfl
@[simp] theorem correctStage_rows (s : State) : (correctStage s).rows = s.rows := rfl
@[simp] theorem correctStage_rowsList (s : State) : (correctStage s).rowsList = s.rowsList := rfl
@[simp] theorem correctStage_colsList (s : State) : (correctStage s).colsList = s.colsList := rfl
@[simp] theorem correctStage_nRowErr (s : State) : (correctStage s).nRowErr = s.nRowErr := rfl
@[simp] theorem correctStage_nColErr (s : State) : (correctStage s).nColErr = s.nColErr := rfl
@[simp] theorem correctStage_single (s : State) : (correctStage s).single = s.single := rfl
@[simp] theorem correctStage_locValid (s : State) : (correctStage s).locValid = s.locValid := rfl
@[simp] theorem correctStage_npairs (s : State) : (correctStage s).npairs = s.npairs := rfl
@[simp] theorem correctStage_pairs (s : State) : (correctStage s).pairs = s.pairs := rfl

/-! ## After a host read (R72) -/

@[simp] theorem hostRead_maxRows (off : Word) (s : State) : (hostRead off s).maxRows = s.maxRows := rfl
@[simp] theorem hostRead_mode (off : Word) (s : State) : (hostRead off s).mode = s.mode := rfl
@[simp] theorem hostRead_len (off : Word) (s : State) : (hostRead off s).len = s.len := rfl
@[simp] theorem hostRead_payload (off : Word) (s : State) : (hostRead off s).payload = s.payload := rfl
@[simp] theorem hostRead_rpar (off : Word) (s : State) : (hostRead off s).rpar = s.rpar := rfl
@[simp] theorem hostRead_cpar (off : Word) (s : State) : (hostRead off s).cpar = s.cpar := rfl
@[simp] theorem hostRead_pclen (off : Word) (s : State) : (hostRead off s).pclen = s.pclen := rfl
@[simp] theorem hostRead_noiseP (off : Word) (s : State) : (hostRead off s).noiseP = s.noiseP := rfl
@[simp] theorem hostRead_rowsyn (off : Word) (s : State) : (hostRead off s).rowsyn = s.rowsyn := rfl
@[simp] theorem hostRead_colsyn (off : Word) (s : State) : (hostRead off s).colsyn = s.colsyn := rfl
@[simp] theorem hostRead_synvalid (off : Word) (s : State) : (hostRead off s).synvalid = s.synvalid := rfl
@[simp] theorem hostRead_ncorr (off : Word) (s : State) : (hostRead off s).ncorr = s.ncorr := rfl
@[simp] theorem hostRead_err (off : Word) (s : State) : (hostRead off s).err = s.err := rfl
@[simp] theorem hostRead_noise (off : Word) (s : State) : (hostRead off s).noise = s.noise := rfl
@[simp] theorem hostRead_events (off : Word) (s : State) : (hostRead off s).events = s.events := rfl
@[simp] theorem hostRead_readData (off : Word) (s : State) :
    (hostRead off s).readData = s.readData ++ [readRegister s (registerAt off)] := rfl
@[simp] theorem hostRead_rows (off : Word) (s : State) : (hostRead off s).rows = s.rows := rfl
@[simp] theorem hostRead_rowsList (off : Word) (s : State) : (hostRead off s).rowsList = s.rowsList := rfl
@[simp] theorem hostRead_colsList (off : Word) (s : State) : (hostRead off s).colsList = s.colsList := rfl
@[simp] theorem hostRead_nRowErr (off : Word) (s : State) : (hostRead off s).nRowErr = s.nRowErr := rfl
@[simp] theorem hostRead_nColErr (off : Word) (s : State) : (hostRead off s).nColErr = s.nColErr := rfl
@[simp] theorem hostRead_single (off : Word) (s : State) : (hostRead off s).single = s.single := rfl
@[simp] theorem hostRead_locValid (off : Word) (s : State) : (hostRead off s).locValid = s.locValid := rfl
@[simp] theorem hostRead_npairs (off : Word) (s : State) : (hostRead off s).npairs = s.npairs := rfl
@[simp] theorem hostRead_pairs (off : Word) (s : State) : (hostRead off s).pairs = s.pairs := rfl

/-! ## After placing a CMD write (R26) -/

@[simp] theorem issueCommand_maxRows (v : Word) (s : State) : (issueCommand v s).maxRows = s.maxRows := rfl
@[simp] theorem issueCommand_mode (v : Word) (s : State) : (issueCommand v s).mode = s.mode := rfl
@[simp] theorem issueCommand_len (v : Word) (s : State) : (issueCommand v s).len = s.len := rfl
@[simp] theorem issueCommand_payload (v : Word) (s : State) : (issueCommand v s).payload = s.payload := rfl
@[simp] theorem issueCommand_rpar (v : Word) (s : State) : (issueCommand v s).rpar = s.rpar := rfl
@[simp] theorem issueCommand_cpar (v : Word) (s : State) : (issueCommand v s).cpar = s.cpar := rfl
@[simp] theorem issueCommand_pclen (v : Word) (s : State) : (issueCommand v s).pclen = s.pclen := rfl
@[simp] theorem issueCommand_noiseP (v : Word) (s : State) : (issueCommand v s).noiseP = s.noiseP := rfl
@[simp] theorem issueCommand_rowsyn (v : Word) (s : State) : (issueCommand v s).rowsyn = s.rowsyn := rfl
@[simp] theorem issueCommand_colsyn (v : Word) (s : State) : (issueCommand v s).colsyn = s.colsyn := rfl
@[simp] theorem issueCommand_synvalid (v : Word) (s : State) : (issueCommand v s).synvalid = s.synvalid := rfl
@[simp] theorem issueCommand_ncorr (v : Word) (s : State) : (issueCommand v s).ncorr = s.ncorr := rfl
@[simp] theorem issueCommand_err (v : Word) (s : State) : (issueCommand v s).err = s.err := rfl
@[simp] theorem issueCommand_noise (v : Word) (s : State) : (issueCommand v s).noise = s.noise := rfl
@[simp] theorem issueCommand_events (v : Word) (s : State) :
    (issueCommand v s).events = .write 0x00C#32 v :: s.events := rfl
@[simp] theorem issueCommand_readData (v : Word) (s : State) : (issueCommand v s).readData = s.readData := rfl
@[simp] theorem issueCommand_rows (v : Word) (s : State) : (issueCommand v s).rows = s.rows := rfl
@[simp] theorem issueCommand_rowsList (v : Word) (s : State) : (issueCommand v s).rowsList = s.rowsList := rfl
@[simp] theorem issueCommand_colsList (v : Word) (s : State) : (issueCommand v s).colsList = s.colsList := rfl
@[simp] theorem issueCommand_nRowErr (v : Word) (s : State) : (issueCommand v s).nRowErr = s.nRowErr := rfl
@[simp] theorem issueCommand_nColErr (v : Word) (s : State) : (issueCommand v s).nColErr = s.nColErr := rfl
@[simp] theorem issueCommand_single (v : Word) (s : State) : (issueCommand v s).single = s.single := rfl
@[simp] theorem issueCommand_locValid (v : Word) (s : State) : (issueCommand v s).locValid = s.locValid := rfl
@[simp] theorem issueCommand_npairs (v : Word) (s : State) : (issueCommand v s).npairs = s.npairs := rfl
@[simp] theorem issueCommand_pairs (v : Word) (s : State) : (issueCommand v s).pairs = s.pairs := rfl

/-! ## The stages read no result code: ending a stage with success commutes with the next one (R191) -/

@[simp] theorem succeed_succeed (s : State) : succeed (succeed s) = succeed s := rfl
theorem buildStage_after_succeed (m : ParityMode) (s : State) : buildStage m (succeed s) = succeed (buildStage m s) := rfl
theorem checkStage_after_succeed (m : ParityMode) (s : State) : checkStage m (succeed s) = succeed (checkStage m s) := rfl
theorem transmitStage_after_succeed (s : State) : transmitStage (succeed s) = succeed (transmitStage s) := rfl
theorem flipStage_after_succeed (f : Nat) (s : State) : flipStage f (succeed s) = succeed (flipStage f s) := rfl
theorem correctStage_after_succeed (s : State) : correctStage (succeed s) = succeed (correctStage s) := rfl

end Sys2Proof.Machine
end

