-- ==== Sys2Proof/Laws/Commands.lean ====
section
/-! SUPPORT. The checks of R219 and what each command can do: `exec_cases` says it once for all of them. -/

namespace Sys2Proof.Machine

@[simp] theorem complete_ok (s t : State) : complete s (.ok t) = .next (succeed t) := rfl

@[simp] theorem complete_error (s : State) (e : CommandError) : complete s (.error e) = .next (raiseError e s) := rfl

/-- LEN passes its check, or is badly framed, or has a bad length; the three exclude each other (R219). -/
theorem State.len_cases (s : State) : s.FramingBad ∨ s.LengthBad ∨ s.LenValid := by
  by_cases h1 : s.len.toNat % 8 = 0
  · by_cases h2 : s.len.toNat = 0 ∨ s.len.toNat > 8 * s.maxRows
    · exact .inr (.inl ⟨h1, h2⟩)
    · exact .inr (.inr ⟨h1, by omega, by omega⟩)
  · exact .inl h1

/-- MODE is refused or names a mode (R24). -/
theorem State.mode_cases (s : State) : s.ModeBad ∨ ∃ m, s.ModeIs m := by
  rcases s with ⟨maxRows, mode⟩
  revert mode
  simp only [State.ModeBad, State.ModeIs]
  intro mode
  have : mode = 0#2 ∨ mode = 1#2 ∨ mode = 2#2 ∨ mode = 3#2 := by revert mode; decide
  rcases this with h | h | h | h
  · exact .inr ⟨.even, .inl ⟨h, rfl⟩⟩
  · exact .inr ⟨.odd, .inr ⟨h, rfl⟩⟩
  · exact .inl (.inl h)
  · exact .inl (.inr h)

theorem checkLen_of_valid {s : State} (h : s.LenValid) : checkLen s = .ok () := by
  obtain ⟨h1, h2, h3⟩ := h
  rw [checkLen, if_neg (by omega), if_neg (by omega)]

theorem checkLen_of_framing {s : State} (h : s.FramingBad) : checkLen s = .error .framing := if_pos h

theorem checkLen_of_length {s : State} (h : s.LengthBad) : checkLen s = .error .length := by
  rw [checkLen, if_neg (not_not.2 h.1), if_pos h.2]

theorem checkMode_of_is {s : State} {m : ParityMode} (h : s.ModeIs m) : checkMode s = .ok m := by
  rcases h with ⟨h, rfl⟩ | ⟨h, rfl⟩ <;> simp [checkMode, ParityMode.ofBits, h]

theorem checkMode_of_bad {s : State} (h : s.ModeBad) : checkMode s = .error .unsupportedMode := by
  rcases h with h | h <;> simp [checkMode, ParityMode.ofBits, h]

theorem checkCodeLength_of_eq {s : State} (h : s.pclen.toNat = s.rows + 8) : checkCodeLength s = .ok () := if_pos h

theorem checkCodeLength_of_ne {s : State} (h : s.pclen.toNat ≠ s.rows + 8) :
    checkCodeLength s = .error .consistency := if_neg h

theorem checkIndex_of_lt {f : Nat} {s : State} (h : f < s.len.toNat) : checkIndex f s = .ok () := if_pos h

theorem checkIndex_of_ge {f : Nat} {s : State} (h : s.len.toNat ≤ f) : checkIndex f s = .error .index :=
  if_neg (by omega)

theorem checkSyndrome_of_valid {s : State} (h : s.synvalid = true) : checkSyndrome s = .ok () := by
  simp [checkSyndrome, h]

theorem checkSyndrome_of_not {s : State} (h : s.synvalid = false) : checkSyndrome s = .error .noSyndrome := by
  simp [checkSyndrome, h]

/-! ## What a command does once its checks pass -/

theorem execBuild_ok {s : State} {m : ParityMode} (hl : s.LenValid) (hm : s.ModeIs m) :
    execBuild s = .next (succeed (buildStage m s)) := by
  rw [execBuild, checkLen_of_valid hl, checkMode_of_is hm]; rfl

theorem execCheck_ok {s : State} {m : ParityMode} (hl : s.LenValid) (hm : s.ModeIs m)
    (hp : s.pclen.toNat = s.rows + 8) : execCheck s = .next (succeed (checkStage m s)) := by
  rw [execCheck, checkLen_of_valid hl, checkMode_of_is hm, checkCodeLength_of_eq hp]; rfl

theorem execFlip_ok {s : State} {f : Nat} (hl : s.LenValid) (hf : f < s.len.toNat) :
    execFlip f s = .next (succeed (flipStage f s)) := by
  rw [execFlip, checkLen_of_valid hl, checkIndex_of_lt hf]; rfl

theorem execNoise_ok {s : State} (hl : s.LenValid) : execNoise s = .next (succeed (transmitStage s)) := by
  rw [execNoise, checkLen_of_valid hl]; rfl

theorem execCorrect_ok {s : State} (h : s.synvalid = true) : execCorrect s = .next (succeed (correctStage s)) := by
  rw [execCorrect, checkSyndrome_of_valid h]; rfl

theorem execRun_ok {s : State} {m : ParityMode} (hl : s.LenValid) (hm : s.ModeIs m) :
    execRun s = .next (succeed (correctStage (checkStage m (transmitStage (buildStage m s))))) := by
  rw [execRun, checkLen_of_valid hl, checkMode_of_is hm]; rfl

/-! ## What a command does when a check fails -/

theorem execBuild_error {s : State} {e : CommandError} (h : checkLen s = .error e) :
    execBuild s = .next (raiseError e s) := by rw [execBuild, h]; rfl

theorem execBuild_modeBad {s : State} (hl : s.LenValid) (hm : s.ModeBad) :
    execBuild s = .next (raiseError .unsupportedMode s) := by
  rw [execBuild, checkLen_of_valid hl, checkMode_of_bad hm]; rfl

theorem execCheck_error {s : State} {e : CommandError} (h : checkLen s = .error e) :
    execCheck s = .next (raiseError e s) := by rw [execCheck, h]; rfl

theorem execCheck_modeBad {s : State} (hl : s.LenValid) (hm : s.ModeBad) :
    execCheck s = .next (raiseError .unsupportedMode s) := by
  rw [execCheck, checkLen_of_valid hl, checkMode_of_bad hm]; rfl

theorem execCheck_codeLength {s : State} {m : ParityMode} (hl : s.LenValid) (hm : s.ModeIs m)
    (hp : s.pclen.toNat ≠ s.rows + 8) : execCheck s = .next (raiseError .consistency s) := by
  rw [execCheck, checkLen_of_valid hl, checkMode_of_is hm, checkCodeLength_of_ne hp]; rfl

theorem execFlip_error {s : State} {f : Nat} {e : CommandError} (h : checkLen s = .error e) :
    execFlip f s = .next (raiseError e s) := by rw [execFlip, h]; rfl

theorem execFlip_index {s : State} {f : Nat} (hl : s.LenValid) (hf : s.len.toNat ≤ f) :
    execFlip f s = .next (raiseError .index s) := by
  rw [execFlip, checkLen_of_valid hl, checkIndex_of_ge hf]; rfl

theorem execNoise_error {s : State} {e : CommandError} (h : checkLen s = .error e) :
    execNoise s = .next (raiseError e s) := by rw [execNoise, h]; rfl

theorem execCorrect_noSyndrome {s : State} (h : s.synvalid = false) :
    execCorrect s = .next (raiseError .noSyndrome s) := by
  rw [execCorrect, checkSyndrome_of_not h]; rfl

theorem execRun_error {s : State} {e : CommandError} (h : checkLen s = .error e) :
    execRun s = .next (raiseError e s) := by rw [execRun, h]; rfl

theorem execRun_modeBad {s : State} (hl : s.LenValid) (hm : s.ModeBad) :
    execRun s = .next (raiseError .unsupportedMode s) := by
  rw [execRun, checkLen_of_valid hl, checkMode_of_bad hm]; rfl

/-! ## Everything a command can do -/

/-- The state a command computes once its checks pass, before ERR is set; `m` is the mode, for the commands that read one. -/
def successState (i : Instr) (m : ParityMode) (s : State) : State :=
  match i with
  | .nop => s
  | .build => buildStage m s
  | .flip f => flipStage f s
  | .noise => transmitStage s
  | .check => checkStage m s
  | .correct => correctStage s
  | .run => correctStage (checkStage m (transmitStage (buildStage m s)))

/-- The checks of a command that finds the mode `m` pass (R219). -/
def checksPass (i : Instr) (m : ParityMode) (s : State) : Prop :=
  match i with
  | .nop => True
  | .build => s.LenValid ∧ s.ModeIs m
  | .flip f => s.LenValid ∧ f < s.len.toNat
  | .noise => s.LenValid
  | .check => s.LenValid ∧ s.ModeIs m ∧ s.pclen.toNat = s.rows + 8
  | .correct => s.synvalid = true
  | .run => s.LenValid ∧ s.ModeIs m

/-- A command either ends with an error and nothing else changed, or its checks pass and it ends with success in the state its
stages compute. -/
theorem exec_cases (i : Instr) (s : State) :
    (∃ e, exec i s = .next (raiseError e s)) ∨
    (∃ m, checksPass i m s ∧ exec i s = .next (succeed (successState i m s))) := by
  cases i with
  | nop => exact .inr ⟨.even, trivial, rfl⟩
  | build =>
    rcases s.len_cases with h | h | h
    · exact .inl ⟨_, execBuild_error (checkLen_of_framing h)⟩
    · exact .inl ⟨_, execBuild_error (checkLen_of_length h)⟩
    · rcases s.mode_cases with hm | ⟨m, hm⟩
      · exact .inl ⟨_, execBuild_modeBad h hm⟩
      · exact .inr ⟨m, ⟨h, hm⟩, execBuild_ok h hm⟩
  | flip f =>
    rcases s.len_cases with h | h | h
    · exact .inl ⟨_, execFlip_error (checkLen_of_framing h)⟩
    · exact .inl ⟨_, execFlip_error (checkLen_of_length h)⟩
    · by_cases hf : f < s.len.toNat
      · exact .inr ⟨.even, ⟨h, hf⟩, execFlip_ok h hf⟩
      · exact .inl ⟨_, execFlip_index h (by omega)⟩
  | noise =>
    rcases s.len_cases with h | h | h
    · exact .inl ⟨_, execNoise_error (checkLen_of_framing h)⟩
    · exact .inl ⟨_, execNoise_error (checkLen_of_length h)⟩
    · exact .inr ⟨.even, h, execNoise_ok h⟩
  | check =>
    rcases s.len_cases with h | h | h
    · exact .inl ⟨_, execCheck_error (checkLen_of_framing h)⟩
    · exact .inl ⟨_, execCheck_error (checkLen_of_length h)⟩
    · rcases s.mode_cases with hm | ⟨m, hm⟩
      · exact .inl ⟨_, execCheck_modeBad h hm⟩
      · by_cases hp : s.pclen.toNat = s.rows + 8
        · exact .inr ⟨m, ⟨h, hm, hp⟩, execCheck_ok h hm hp⟩
        · exact .inl ⟨_, execCheck_codeLength h hm hp⟩
  | correct =>
    by_cases h : s.synvalid = true
    · exact .inr ⟨.even, h, execCorrect_ok h⟩
    · exact .inl ⟨_, execCorrect_noSyndrome (by simpa using h)⟩
  | run =>
    rcases s.len_cases with h | h | h
    · exact .inl ⟨_, execRun_error (checkLen_of_framing h)⟩
    · exact .inl ⟨_, execRun_error (checkLen_of_length h)⟩
    · rcases s.mode_cases with hm | ⟨m, hm⟩
      · exact .inl ⟨_, execRun_modeBad h hm⟩
      · exact .inr ⟨m, ⟨h, hm⟩, execRun_ok h hm⟩

/-- What a next state of a command can be. -/
theorem exec_next_cases {i : Instr} {s t : State} (h : exec i s = .next t) :
    (∃ e, t = raiseError e s) ∨ (∃ m, checksPass i m s ∧ t = succeed (successState i m s)) := by
  rcases exec_cases i s with ⟨e, he⟩ | ⟨m, hm, he⟩
  · rw [he] at h; cases h; exact .inl ⟨e, rfl⟩
  · rw [he] at h; cases h; exact .inr ⟨m, hm, rfl⟩

@[simp] theorem CommandError.code_ne_zero (e : CommandError) : e.code ≠ 0#4 := by cases e <;> decide

end Sys2Proof.Machine
end

