-- ==== Sys2Proof/Laws/Flags.lean ====
section
/-! SUPPORT. The derived syndrome views (R39) and the bits CORRECT inverts. -/

namespace Sys2Proof.Machine

@[simp] theorem mem_rowsList (s : State) (i : Nat) :
    i ∈ s.rowsList ↔ i < s.maxRows ∧ s.rowsyn.getLsbD i = true := by simp [State.rowsList]

@[simp] theorem mem_colsList (s : State) (k : Nat) :
    k ∈ s.colsList ↔ k < 8 ∧ s.colsyn.getLsbD (7 - k) = true := by simp [State.colsList]

theorem rowsList_sorted (s : State) : s.rowsList.Pairwise (· < ·) := List.Pairwise.filter _ List.pairwise_lt_range

theorem colsList_sorted (s : State) : s.colsList.Pairwise (· < ·) := List.Pairwise.filter _ List.pairwise_lt_range

theorem rowsList_nodup (s : State) : s.rowsList.Nodup := List.Nodup.filter _ List.nodup_range

theorem colsList_nodup (s : State) : s.colsList.Nodup := List.Nodup.filter _ List.nodup_range

theorem nColErr_le (s : State) : s.nColErr ≤ 8 := by
  have := List.length_filter_le (fun k => s.colsyn.getLsbD (7 - k)) (List.range 8)
  simpa [State.nColErr, State.colsList] using this

theorem nRowErr_le (s : State) : s.nRowErr ≤ s.maxRows := by
  have := List.length_filter_le (fun i => s.rowsyn.getLsbD i) (List.range s.maxRows)
  simpa [State.nRowErr, State.rowsList] using this

theorem npairs_le (s : State) : s.npairs ≤ 8 := le_trans (Nat.min_le_right _ _) (nColErr_le s)

@[simp] theorem pairs_length (s : State) : s.pairs.length = s.npairs := by
  simp [State.pairs, State.npairs, State.nRowErr, State.nColErr]

@[simp] theorem single_iff (s : State) : s.single = true ↔ s.nRowErr = 1 ∧ s.nColErr = 1 := by simp [State.single]

@[simp] theorem locValid_iff (s : State) : s.locValid = true ↔ 1 ≤ s.nRowErr ∧ 1 ≤ s.nColErr := by
  simp [State.locValid]

theorem mem_pairs {s : State} {rc : Nat × Nat} (h : rc ∈ s.pairs) : rc.1 ∈ s.rowsList ∧ rc.2 ∈ s.colsList :=
  List.of_mem_zip (a := rc.1) (b := rc.2) h

/-- The row of a pair's flat index is the pair's row (R170). -/
theorem flatIndex_div {s : State} {rc : Nat × Nat} (h : rc ∈ s.pairs) : flatIndex rc / 8 = rc.1 := by
  have := ((mem_colsList s _).1 (mem_pairs h).2).1
  rw [flatIndex]; omega

/-- The first components of a pairing are a prefix of the first list. -/
theorem map_fst_zip_prefix {α β : Type} (l : List α) (l' : List β) : ((l.zip l').map Prod.fst) <+: l := by
  induction l generalizing l' with
  | nil => simp
  | cons a l ih =>
    cases l' with
    | nil => simp
    | cons b l' => simpa using ih l'

theorem pairs_fst_nodup (s : State) : (s.pairs.map Prod.fst).Nodup :=
  (rowsList_nodup s).sublist (map_fst_zip_prefix s.rowsList s.colsList).sublist

/-- The flat indices of the pairs are distinct, for their rows are. -/
theorem flatIndices_nodup (s : State) : (s.pairs.map flatIndex).Nodup := by
  have h := pairs_fst_nodup s
  rw [List.nodup_iff_pairwise_ne, List.pairwise_map] at h ⊢
  refine List.Pairwise.imp_of_mem (fun ha hb hab he => hab ?_) h
  rw [← flatIndex_div ha, ← flatIndex_div hb, he]

/-- A list of naturals that is strictly rising is determined by its members. -/
theorem sorted_list_ext {l l' : List Nat} (hl : l.Pairwise (· < ·)) (hl' : l'.Pairwise (· < ·))
    (h : ∀ a, a ∈ l ↔ a ∈ l') : l = l' := by
  refine List.Perm.eq_of_pairwise (le := (· < ·)) (fun a b _ _ hab hba => absurd hab (by omega)) hl hl' ?_
  exact (List.perm_ext_iff_of_nodup (hl.imp (by omega)) (hl'.imp (by omega))).2 h

/-- The flagged rows are the strictly rising list with the flagged rows as members. -/
theorem rowsList_eq {s : State} {l : List Nat} (hl : l.Pairwise (· < ·))
    (h : ∀ i, i ∈ l ↔ i < s.maxRows ∧ s.rowsyn.getLsbD i = true) : s.rowsList = l :=
  sorted_list_ext (rowsList_sorted s) hl fun i => by rw [mem_rowsList, h]

/-- The flagged columns are the strictly rising list with the flagged columns as members. -/
theorem colsList_eq {s : State} {l : List Nat} (hl : l.Pairwise (· < ·))
    (h : ∀ k, k ∈ l ↔ k < 8 ∧ s.colsyn.getLsbD (7 - k) = true) : s.colsList = l :=
  sorted_list_ext (colsList_sorted s) hl fun k => by rw [mem_colsList, h]

/-! ## CORRECT's stage -/

theorem pbit_correctStage {s : State} (hp : s.payload.wf = true) (f : Nat) :
    pbit (correctStage s).payload f = (pbit s.payload f ^^ decide (f ∈ s.pairs.map flatIndex)) :=
  pbit_flips hp (flatIndices_nodup s) f

theorem read_correctStage_of_not_mem (s : State) {a : Nat} (h : a ∉ s.pairs.map Prod.fst) :
    (correctStage s).payload.read a = s.payload.read a := by
  refine read_flips_of_not_mem _ _ fun f hf ha => h ?_
  obtain ⟨rc, hrc, rfl⟩ := List.mem_map.1 hf
  exact List.mem_map.2 ⟨rc, hrc, by rw [ha, flatIndex_div hrc]⟩

theorem wf_correctStage {s : State} (hp : s.payload.wf = true) : (correctStage s).payload.wf = true := wf_flips hp _

theorem within_correctStage {s : State} (hp : s.payload.within s.maxRows = true) :
    (correctStage s).payload.within s.maxRows = true := by
  refine within_flips hp _ fun f hf => ?_
  obtain ⟨rc, hrc, rfl⟩ := List.mem_map.1 hf
  rw [flatIndex_div hrc]
  exact ((mem_rowsList s _).1 (mem_pairs hrc).1).1

/-! ## CHECK's stage -/

theorem getLsbD_checkStage_rowsyn {m : ParityMode} {s : State} (hn : s.rows ≤ 256) (i : Nat) :
    (checkStage m s).rowsyn.getLsbD i =
      (decide (i < s.rows) && (rowParity m s.payload i ^^ s.rpar.getLsbD i)) := by
  rw [checkStage_rowsyn, getLsbD_bitsBelow]
  by_cases hi : i < s.rows
  · simp [hi, (by omega : i < 256)]
  · simp [hi]

theorem getLsbD_checkStage_colsyn (m : ParityMode) (s : State) {k : Nat} (hk : k < 8) :
    (checkStage m s).colsyn.getLsbD (7 - k) = (colParity m s.payload s.rows k ^^ s.cpar.getLsbD (7 - k)) := by
  rw [checkStage_colsyn, BitVec.getLsbD_xor, getLsbD_colParities m _ _ hk]

end Sys2Proof.Machine
end

