-- ==== Sys2Proof/Laws/PerInstr.lean ====
section
/-! SUPPORT. What the word of each command holds, field by field. -/

namespace Sys2Proof.Laws

/-- The command's word holds its OP in [3:0], its ARG in [26:16], and 0 in the ignored bits (R100, R104, R109). -/
def OpcodeField.Statement (i : Instr) : Prop :=
  (encode i).extractLsb' 0 4 = i.opcode ∧ (encode i).extractLsb' 4 12 = 0#12 ∧
    (encode i).extractLsb' 16 11 = i.argument ∧ (encode i).extractLsb' 27 5 = 0#5

/-- The fields of a word put together from an ARG and an OP. -/
theorem encode_fields (a : BitVec 11) (o : BitVec 4) :
    (0#5 ++ a ++ 0#12 ++ o : Word).extractLsb' 0 4 = o ∧ (0#5 ++ a ++ 0#12 ++ o : Word).extractLsb' 4 12 = 0#12 ∧
      (0#5 ++ a ++ 0#12 ++ o : Word).extractLsb' 16 11 = a ∧ (0#5 ++ a ++ 0#12 ++ o : Word).extractLsb' 27 5 = 0#5 := by
  refine ⟨?_, ?_, ?_, ?_⟩
  all_goals
    apply BitVec.eq_of_getLsbD_eq
    intro i hi
    simp only [BitVec.getLsbD_extractLsb', BitVec.getLsbD_append, hi, decide_true, Bool.true_and]
  · simp [hi]
  · rw [if_neg (by omega), if_pos (by omega)]
    simp
  · rw [if_neg (by omega), if_neg (by omega), if_pos (by omega), show 16 + i - 4 - 12 = i by omega]
  · rw [if_neg (by omega), if_neg (by omega), if_neg (by omega)]
    simp

theorem OpcodeField.nop : OpcodeField.Statement .nop := encode_fields _ _

theorem OpcodeField.build : OpcodeField.Statement .build := encode_fields _ _

theorem OpcodeField.flip (arg : Nat) : OpcodeField.Statement (.flip arg) := encode_fields _ _

theorem OpcodeField.noise : OpcodeField.Statement .noise := encode_fields _ _

theorem OpcodeField.check : OpcodeField.Statement .check := encode_fields _ _

theorem OpcodeField.correct : OpcodeField.Statement .correct := encode_fields _ _

theorem OpcodeField.run : OpcodeField.Statement .run := encode_fields _ _

end Sys2Proof.Laws
end

