-- ==== Sys2Proof/Laws/Registers.lean ====
section
/-! SUPPORT. The words of the window: what a row word holds and what a write to one changes. -/

namespace Sys2Proof.Machine

/-- Bit `b` of word `j` of a row mask is row `32*j + b`, 0 at and above the capacity (R35, R36). -/
theorem getLsbD_rowWord (maxRows : Nat) (rows : BitVec 256) (j : Nat) {b : Nat} (hb : b < 32) :
    (rowWord maxRows rows j).getLsbD b = (decide (32 * j + b < maxRows) && rows.getLsbD (32 * j + b)) := by
  rw [rowWord, getLsbD_bitsBelow]; simp [hb]

/-- A write to word `j` of a row mask changes the rows of that word below the capacity, and no other (R35). -/
theorem getLsbD_writeRowWord {maxRows : Nat} (hm : maxRows ≤ 256) (rows : BitVec 256) (j : Nat) (v : Word) (r : Nat) :
    (writeRowWord maxRows rows j v).getLsbD r =
      (decide (r < maxRows) && if r / 32 = j then v.getLsbD (r % 32) else rows.getLsbD r) := by
  rw [writeRowWord, getLsbD_bitsBelow]
  by_cases hr : r < maxRows
  · simp [hr, (by omega : r < 256)]
  · simp [hr]

/-! ## A register write changes no field but its register's own and SYNVALID -/

@[simp] theorem writeRegister_maxRows (s : State) (r : Register) (v : Word) : (writeRegister s r v).maxRows = s.maxRows := by
  cases r <;> first | rfl | (unfold writeRegister; dsimp only; split <;> rfl)

@[simp] theorem writeRegister_rowsyn (s : State) (r : Register) (v : Word) : (writeRegister s r v).rowsyn = s.rowsyn := by
  cases r <;> first | rfl | (unfold writeRegister; dsimp only; split <;> rfl)

@[simp] theorem writeRegister_colsyn (s : State) (r : Register) (v : Word) : (writeRegister s r v).colsyn = s.colsyn := by
  cases r <;> first | rfl | (unfold writeRegister; dsimp only; split <;> rfl)

@[simp] theorem writeRegister_ncorr (s : State) (r : Register) (v : Word) : (writeRegister s r v).ncorr = s.ncorr := by
  cases r <;> first | rfl | (unfold writeRegister; dsimp only; split <;> rfl)

@[simp] theorem writeRegister_err (s : State) (r : Register) (v : Word) : (writeRegister s r v).err = s.err := by
  cases r <;> first | rfl | (unfold writeRegister; dsimp only; split <;> rfl)

@[simp] theorem writeRegister_noise (s : State) (r : Register) (v : Word) : (writeRegister s r v).noise = s.noise := by
  cases r <;> first | rfl | (unfold writeRegister; dsimp only; split <;> rfl)

@[simp] theorem writeRegister_events (s : State) (r : Register) (v : Word) : (writeRegister s r v).events = s.events := by
  cases r <;> first | rfl | (unfold writeRegister; dsimp only; split <;> rfl)

@[simp] theorem writeRegister_readData (s : State) (r : Register) (v : Word) : (writeRegister s r v).readData = s.readData := by
  cases r <;> first | rfl | (unfold writeRegister; dsimp only; split <;> rfl)

end Sys2Proof.Machine
end

