-- ==== Sys2Proof/Laws/Step.lean ====
section
/-! SUPPORT. Everything one step can do. -/

namespace Sys2Proof.Machine

/-- The CMD register is at offset 0x00C of the window, and nowhere else (R43). -/
theorem registerAt_eq_cmd_iff (off : Word) : registerAt off = .cmd ↔ off &&& 0x7FC#32 = 0x00C#32 := by
  have hcast : off &&& 0x7FC#32 = 0x00C#32 ↔ (off &&& 0x7FC#32).toNat = 0x00C := by
    rw [← BitVec.toNat_inj]; rfl
  rw [hcast]
  unfold registerAt
  generalize (off &&& 0x7FC#32).toNat = w
  constructor
  · intro h
    dsimp only at h
    split at h <;> first | rfl | cases h | skip
    split_ifs at h
  · rintro rfl; rfl

/-- A step answers one of: idle; the reset event; a read; a write to a register other than CMD; a CMD write with a command; a CMD
write with a reserved opcode. -/
theorem step_next_cases {s t : State} (h : step s = .next t) :
    (s.events = [] ∧ t = s) ∨
    (∃ rest, s.events = .reset :: rest ∧ t = resetEvent { s with events := rest }) ∨
    (∃ off rest, s.events = .read off :: rest ∧ t = hostRead off { s with events := rest }) ∨
    (∃ off v rest, s.events = .write off v :: rest ∧ registerAt off ≠ .cmd ∧
      t = writeRegister { s with events := rest } (registerAt off) v) ∨
    (∃ off v rest i, s.events = .write off v :: rest ∧ registerAt off = .cmd ∧ decode v = .ok i ∧
      exec i { s with events := rest } = .next t) ∨
    (∃ off v rest e, s.events = .write off v :: rest ∧ registerAt off = .cmd ∧ decode v = .error e ∧
      t = raiseError .illegalCommand { s with events := rest }) := by
  unfold step nextAccess at h
  split at h
  · next u hu =>
    cases h
    split at hu
    · next he => cases hu; exact .inl ⟨he, rfl⟩
    · next rest he => cases hu; exact .inr (.inl ⟨rest, he, rfl⟩)
    · next off rest he => cases hu; exact .inr (.inr (.inl ⟨off, rest, he, rfl⟩))
    · next off v rest he =>
      unfold hostWrite at hu
      split at hu
      · next hr =>
        split at hu
        · cases hu
        · next e hd => cases hu; exact .inr (.inr (.inr (.inr (.inr ⟨off, v, rest, e, he, hr, hd, rfl⟩))))
      · next hr => cases hu; exact .inr (.inr (.inr (.inl ⟨off, v, rest, he, hr, rfl⟩)))
  · next i u hu =>
    split at hu
    · cases hu
    · cases hu
    · cases hu
    · next off v rest he =>
      unfold hostWrite at hu
      split at hu
      · next hr =>
        split at hu
        · next j hd => cases hu; exact .inr (.inr (.inr (.inr (.inl ⟨off, v, rest, _, he, hr, hd, h⟩))))
        · cases hu
      · cases hu

/-! ## A host write, by its register -/

theorem hostWrite_other {off : Word} (v : Word) (s : State) (hr : registerAt off ≠ .cmd) :
    hostWrite off v s = .done (writeRegister s (registerAt off) v) := by
  unfold hostWrite
  split
  · next h => exact absurd h hr
  · rfl

theorem hostWrite_command {off v : Word} {i : Instr} (s : State) (hr : registerAt off = .cmd) (hd : decode v = .ok i) :
    hostWrite off v s = .command i s := by
  unfold hostWrite; rw [hr, hd]

theorem hostWrite_reserved {off v : Word} {e : DecodeError} (s : State) (hr : registerAt off = .cmd)
    (hd : decode v = .error e) : hostWrite off v s = .done (raiseError .illegalCommand s) := by
  unfold hostWrite; rw [hr, hd]

end Sys2Proof.Machine
end

