-- ==== Sys2Proof/Laws/WellFormed.lean ====
section
/-! SUPPORT. The parts of a well-formed state, and what a valid LEN gives. -/

namespace Sys2Proof.Machine

/-- The parts of `State.wf`. -/
theorem State.wf_iff (s : State) : s.wf = true ↔
    1 ≤ s.maxRows ∧ s.maxRows ≤ 256 ∧ s.payload.wf = true ∧ s.payload.within s.maxRows = true ∧
      s.rpar.toNat < 2 ^ s.maxRows ∧ s.rowsyn.toNat < 2 ^ s.maxRows ∧ s.err.toNat ≤ 7 ∧ s.ncorr.toNat ≤ 8 := by
  simp [State.wf, and_assoc]

theorem State.wf_payload {s : State} (h : s.wf = true) : s.payload.wf = true := (s.wf_iff.1 h).2.2.1

theorem State.wf_within {s : State} (h : s.wf = true) : s.payload.within s.maxRows = true := (s.wf_iff.1 h).2.2.2.1

theorem State.wf_maxRows {s : State} (h : s.wf = true) : s.maxRows ≤ 256 := (s.wf_iff.1 h).2.1

/-- A valid LEN is eight times the number of rows, which is positive and within the capacity (R12, R219). -/
theorem State.rows_of_valid {s : State} (h : s.LenValid) :
    s.len.toNat = 8 * s.rows ∧ 0 < s.rows ∧ s.rows ≤ s.maxRows := by
  obtain ⟨h1, h2, h3⟩ := h
  simp only [State.rows]; omega

/-- PCLEN can hold the length of the parity code of every payload within the capacity (R32). -/
theorem State.pclen_of_rows {s : State} (hw : s.wf = true) (h : s.LenValid) :
    (BitVec.ofNat 9 (s.rows + 8)).toNat = s.rows + 8 := by
  have h1 := State.wf_maxRows hw
  have h2 := (State.rows_of_valid h).2.2
  rw [BitVec.toNat_ofNat]
  exact Nat.mod_eq_of_lt (by omega)

end Sys2Proof.Machine
end

