-- ==== Sys2Proof/Tests/Slice0.lean ====
section
/-! SUPPORT. The model's own tests: decoding, the well-formedness check, one step of each command against the vectors of
95_test_vectors.md, and a witness for every statement that has hypotheses. -/

namespace Sys2Proof.Tests

open Sys2Proof.Machine

/-- The outcome is a next state that passes the check `p`. -/
def nextIs (o : Host.Outcome State Fault Refusal) (p : State → Bool) : Bool :=
  match o with
  | .next t => p t
  | .fault _ => false
  | .refused _ => false

/-- Reset, then the payload "Hi" of two rows and LEN = 16. -/
def hi : State := { State.reset with payload := [(0, 0x48#8), (1, 0x69#8)], len := 16#12 }

/-- "Hi" with its EVEN code (V-B3) and bit 11 flipped, as before the CHECK of V-K3. -/
def received : State := { hi with payload := [(0, 0x48#8), (1, 0x79#8)], cpar := 0x21#8, pclen := 10#9 }

/-- `received` after its CHECK (V-K3). -/
def checked : State := { received with rowsyn := 0x2#256, colsyn := 0x10#8, synvalid := true }

/-- Draws that flip bit 11 of 16 and no other (V-N2, V-R2). -/
def drawsFlipping11 : Noise := { queue := List.replicate 11 0xFFFF#16 ++ 0x0000#16 :: List.replicate 4 0xFFFF#16, drawn := 0 }

/-! ## Words written out from 30_encoding.md R100, R104, R109 -/

theorem test_decode_nop : decode 0b00000_00000000000_000000000000_0000#32 = .ok .nop := by decide
theorem test_decode_build : decode 0b00000_00000000000_000000000000_0001#32 = .ok .build := by decide
theorem test_decode_flip : decode 0b00000_00000001011_000000000000_0010#32 = .ok (.flip 11) := by decide
theorem test_decode_flip_last : decode 0b11111_11111111111_111111111111_0010#32 = .ok (.flip 2047) := by decide
theorem test_decode_noise : decode 0b00000_00000000000_000000000000_0011#32 = .ok .noise := by decide
theorem test_decode_check : decode 0b00000_00000000000_000000000000_0100#32 = .ok .check := by decide
theorem test_decode_correct : decode 0b00000_00000000000_000000000000_0101#32 = .ok .correct := by decide
theorem test_decode_run : decode 0b00000_00000000000_000000000000_0110#32 = .ok .run := by decide
theorem test_decode_reserved : decode 0b00000_00000000000_000000000000_0111#32 = .error (.reservedOpcode 7) := by decide
theorem test_encode_flip : encode (.flip 11) = 0x000B0002#32 := by decide
theorem test_table_word : decodeTableWord 8 0x06 = some .run := by decide

/-! ## WellFormed: the one check refuses its ill-formed term (R109) -/

theorem test_wellFormed_flip_last : Instr.wellFormed (.flip 2047) = true := by decide
theorem test_wellFormed_flip_too_far : Instr.wellFormed (.flip 2048) = false := by decide

/-! ## One step of each command -/

/-- V-X9. -/
theorem test_nop : nextIs (exec .nop { hi with err := 6#4 }) (fun t => t.err == 0#4 && t.payload == hi.payload) = true := by
  decide

/-- V-B3. -/
theorem test_build_hi : nextIs (exec .build hi) (fun t => t.rpar == 0#256 && t.cpar == 0x21#8 && t.pclen == 10#9) = true := by
  decide

/-- V-B2. -/
theorem test_build_odd :
    nextIs (exec .build { hi with payload := [(0, 0x68#8)], len := 8#12, mode := 1#2 })
      (fun t => t.rpar == 0#256 && t.cpar == 0x97#8 && t.pclen == 9#9) = true := by decide

/-- V-F1. -/
theorem test_flip : nextIs (exec (.flip 11) hi) (fun t => t.payload == [(0, 0x48#8), (1, 0x79#8)] && t.err == 0#4) = true := by
  decide

/-- V-F3. -/
theorem test_flip_index : nextIs (exec (.flip 16) hi) (fun t => t.payload == hi.payload && t.err == 5#4) = true := by decide

/-- V-N2. -/
theorem test_noise :
    nextIs (exec .noise { hi with noiseP := 0x8000#16, noise := drawsFlipping11 })
      (fun t => t.payload == [(0, 0x48#8), (1, 0x79#8)] && t.noise == { queue := [], drawn := 16 }) = true := by decide

/-- V-N6. -/
theorem test_noise_threshold :
    nextIs (exec .noise { hi with
        len := 8#12, noiseP := 0x8000#16, noise := { queue := 0x7FFF#16 :: 0x8000#16 :: List.replicate 6 0xFFFF#16, drawn := 0 } })
      (fun t => t.payload.read 0 == 0xC8#8) = true := by decide

/-- V-K3. -/
theorem test_check :
    nextIs (exec .check received) (fun t => t.rowsyn == 0x2#256 && t.colsyn == 0x10#8 &&
      readRegister t .status == 0x70#32 && readRegister t .loc == 0x000B0301#32) = true := by decide

/-- V-K14. -/
theorem test_check_consistency : nextIs (exec .check { received with len := 8#12 }) (fun t => t.err == 3#4) = true := by decide

/-- V-C1. -/
theorem test_correct :
    nextIs (exec .correct checked) (fun t => t.payload == [(0, 0x48#8), (1, 0x69#8)] && t.ncorr == 1#4 &&
      readRegister t .status == 0x60#32) = true := by decide

/-- V-C10. -/
theorem test_correct_no_syndrome :
    nextIs (exec .correct State.reset) (fun t => readRegister t .status == 0x06#32) = true := by decide

/-- V-R2. -/
theorem test_run :
    nextIs (exec .run { hi with noiseP := 0x8000#16, noise := drawsFlipping11 })
      (fun t => t.payload == hi.payload && readRegister t .syncnt == 0x01010001#32 && readRegister t .loc == 0x000B0301#32 &&
        readRegister t .status == 0x60#32) = true := by decide

/-- V-R4. -/
theorem test_run_mode : nextIs (exec .run { hi with mode := 3#2 }) (fun t => t.err == 2#4 && t.noise == hi.noise) = true := by
  decide

/-- V-X1. -/
theorem test_step_illegal :
    nextIs (step { hi with events := [.write 0x00C#32 0x00000007#32] }) (fun t => t == { hi with err := 7#4 }) = true := by decide

/-- A command placed with withFetchWord is the next to run. -/
theorem test_step_placed : nextIs (step (hi.withFetchWord 8 1)) (fun t => t.pclen == 10#9) = true := by decide

/-- V-X8, V-X12: the parameter register, and offset bits [1:0] ignored. -/
theorem test_step_read :
    nextIs (step { hi with events := [.read 0x403#32] }) (fun t => t.readData == [0x48#32]) = true ∧
    nextIs (step { hi with events := [.read 0x000#32] }) (fun t => t.readData == [0x00080100#32]) = true := by decide

/-! ## Witnesses: a state and operands that meet the hypotheses of each statement -/

theorem witness_StepRunsDecodedCommand :
    ({ hi with events := [.write 0x00F#32 0xFFF0FFF1#32, .reset] } : State).events =
        .write 0x00F#32 0xFFF0FFF1#32 :: [.reset] ∧
      0x00F#32 &&& 0x7FC#32 = 0x00C#32 ∧ decode 0xFFF0FFF1#32 = .ok .build := by decide

theorem witness_PlacedCommandRunsNext : decodeTableWord 32 0x07FF0002 = some (.flip 2047) := by decide

theorem witness_ReservedOpcodeRaisesIllegalCommand :
    ({ hi with events := [.write 0x00C#32 0x7#32] } : State).events = .write 0x00C#32 0x7#32 :: [] ∧
      0x00C#32 &&& 0x7FC#32 = 0x00C#32 ∧ 0x7 ≤ ((0x7#32 : Word).extractLsb' 0 4).toNat ∧
      0x7 ≤ ((0xFFFF000F#32 : Word).extractLsb' 0 4).toNat := by decide

theorem witness_IgnoredBitsDoNotMatter :
    0x00C#32 &&& 0x7FC#32 = 0x00C#32 ∧
      (0x000B0002#32 : Word).extractLsb' 0 4 = (0xF80BFFF2#32 : Word).extractLsb' 0 4 ∧
      (0x000B0002#32 : Word).extractLsb' 16 11 = (0xF80BFFF2#32 : Word).extractLsb' 16 11 ∧
      (0x00000001#32 : Word).extractLsb' 0 4 = (0xFFFFFFF1#32 : Word).extractLsb' 0 4 ∧
      (0x00000001#32 : Word).extractLsb' 0 4 ≠ 2#4 := by decide

theorem witness_DecodeOfEncodeIsTheCommand :
    Instr.wellFormed (.flip 0) = true ∧ Instr.wellFormed (.flip 2047) = true ∧ Instr.wellFormed .run = true := by decide

theorem witness_EncodeOfDecodeClearsIgnoredBits :
    decode 0xFFFFFFF2#32 = .ok (.flip 2047) ∧ decode 0xFFFFFFF0#32 = .ok .nop := by decide

/-- Each clause of the map at the ends of its range. -/
theorem witness_RegisterMapIsAsSpecified :
    registerAt 0x003#32 = .param ∧ registerAt 0x807#32 = .ctrl ∧ registerAt 0x00B#32 = .len ∧ registerAt 0x00C#32 = .cmd ∧
    registerAt 0x010#32 = .status ∧ registerAt 0x014#32 = .syncnt ∧ registerAt 0x018#32 = .loc ∧
    registerAt 0x01C#32 = .cpar ∧ registerAt 0x020#32 = .colsyn ∧ registerAt 0x024#32 = .pclen ∧
    registerAt 0x028#32 = .noiseP ∧ registerAt 0x02C#32 = .reserved ∧ registerAt 0x0FF#32 = .reserved ∧
    registerAt 0x100#32 = .rpar 0 ∧ registerAt 0x11F#32 = .rpar 7 ∧ registerAt 0x120#32 = .reserved ∧
    registerAt 0x1FF#32 = .reserved ∧ registerAt 0x200#32 = .rowsyn 0 ∧ registerAt 0x21F#32 = .rowsyn 7 ∧
    registerAt 0x220#32 = .reserved ∧ registerAt 0x3FF#32 = .reserved ∧ registerAt 0x400#32 = .payload 0 ∧
    registerAt 0x7FC#32 = .payload 255 := by decide

theorem witness_ReadReturnsTheWordAndChangesNothing :
    ({ hi with events := [.read 0x7FF#32] } : State).events = .read 0x7FF#32 :: [] := by decide

/-- A state with every row list full, every flag set and every count at its most. -/
def full : State :=
  { State.reset with
    len := 2048#12, pclen := 264#9, rowsyn := BitVec.allOnes 256, colsyn := 0xFF#8, rpar := BitVec.allOnes 256,
    ncorr := 8#4, err := 7#4, payload := [(0, 0x01#8), (255, 0xFF#8)] }

/-- The smallest capacity, with its one row. -/
def tiny : State := { State.resetWith 1 with len := 8#12, pclen := 9#9, payload := [(0, 0x80#8)], rpar := 1#256 }

/-- Well-formed states at both ends of the capacity: for the statements whose one hypothesis is `s.wf` (SyncntHoldsItsCounts,
ParamIsConstant, ReadsReturnTheFields, WrittenRegistersReadBack, ReservedSpaceReadsZeroAndIgnoresWrites). -/
theorem witness_wf : full.wf = true ∧ tiny.wf = true ∧ hi.wf = true ∧ State.reset.wf = true := by decide

/-- RegisterWriteFrame: a write that stores in the first and in the last row, in both windows. -/
theorem witness_RegisterWriteFrame :
    full.wf = true ∧ 255 < full.maxRows ∧ 255 / 32 = 7 ∧ registerAt 0x7FC#32 ≠ .cmd ∧
      nextIs (step { full with events := [.write 0x7FC#32 0x0000015A#32] })
        (fun t => t.payload == [(0, 0x01#8), (255, 0x5A#8)]) = true ∧
      tiny.wf = true ∧ 0 < tiny.maxRows ∧ 0 / 32 = 0 ∧ registerAt 0x100#32 ≠ .cmd ∧
      nextIs (step { tiny with events := [.write 0x100#32 0x00000002#32] }) (fun t => t.rpar == 0#256) = true := by decide

/-- LocHoldsTheFirstPair: the last row and the last column alone; and each empty syndrome. -/
theorem witness_LocHoldsTheFirstPair :
    ({ full with rowsyn := BitVec.twoPow 256 255, colsyn := 0x01#8 } : State).wf = true ∧
    (BitVec.twoPow 256 255).getLsbD 255 = true ∧ (∀ r, r < 255 → (BitVec.twoPow 256 255).getLsbD r = false) ∧
    (0x01#8 : Byte).getLsbD (7 - 7) = true ∧ (∀ c, c < 7 → (0x01#8 : Byte).getLsbD (7 - c) = false) ∧
    ({ full with rowsyn := 0#256 } : State).wf = true ∧ ({ full with colsyn := 0#8 } : State).wf = true := by
  refine ⟨by decide, by decide, fun r hr => ?_, by decide, by decide, by decide, by decide⟩
  have h : 255 ≠ r := by omega
  simp [h]

theorem witness_ReservedSpaceIgnoresWrites :
    ({ hi with events := [.write 0x010#32 0xFFFFFFFF#32] } : State).events = .write 0x010#32 0xFFFFFFFF#32 :: [] ∧
      (registerAt 0x010#32).ignoresWrites = true ∧ (registerAt 0x3FC#32).ignoresWrites = true ∧ registerAt 0x010#32 ≠ .cmd ∧
      ({ hi with events := [.read 0x00C#32] } : State).events = .read 0x00C#32 :: [] := by decide

theorem witness_RegisterWritesAreIdempotent :
    hi.wf = true ∧ registerAt 0x400#32 ≠ .cmd ∧
      nextIs (step { hi with events := [.write 0x400#32 0x55#32, .write 0x400#32 0x55#32] }) (fun _ => true) = true := by decide

/-- SenderWritesComeInAnyOrder: two rows of one window, a list whose one framed-unit register is its last, and a write to NOISE_P
before the first command. -/
theorem witness_SenderWritesComeInAnyOrder :
    full.wf = true ∧ Register.payload 0 ≠ Register.payload 255 ∧ checked.synvalid = true ∧
      (∃ w ∈ [(Register.noiseP, 0x8000#32), (Register.len, 16#32)], w.1.clearsSynvalid checked.maxRows = true) ∧
      ({ hi with events := [.write 0x028#32 0x8000#32] } : State).synvalid = false ∧
      ({ hi with events := [.write 0x028#32 0x8000#32] } : State).nextCmdWord = none ∧
      nextIs (step { hi with events := [.write 0x028#32 0x8000#32] }) (fun t => !t.synvalid && t.noiseP == 0x8000#16) = true := by
  refine ⟨by decide, by decide, by decide, ⟨(.len, 16#32), by simp, by decide⟩, by decide, by decide, by decide⟩

/-- The clauses of BUILD, NOISE and RUN, at the ends of their ranges: framing (1, 4095), length (0, one row too many), a refused
mode (2, 3), and success (the shortest and the longest LEN, both modes). -/
theorem witness_length_and_mode_clauses :
    (({ hi with len := 1#12 } : State).wf = true ∧ ({ hi with len := 1#12 } : State).FramingBad) ∧
    (({ hi with len := 4095#12 } : State).wf = true ∧ ({ hi with len := 4095#12 } : State).FramingBad) ∧
    (({ hi with len := 0#12 } : State).wf = true ∧ ({ hi with len := 0#12 } : State).LengthBad) ∧
    (({ hi with len := 2056#12 } : State).wf = true ∧ ({ hi with len := 2056#12 } : State).LengthBad) ∧
    (({ hi with mode := 2#2 } : State).wf = true ∧ ({ hi with mode := 2#2 } : State).LenValid ∧
      ({ hi with mode := 2#2 } : State).ModeBad) ∧
    (({ hi with mode := 3#2 } : State).wf = true ∧ ({ hi with mode := 3#2 } : State).LenValid ∧
      ({ hi with mode := 3#2 } : State).ModeBad) ∧
    (tiny.wf = true ∧ tiny.LenValid ∧ tiny.ModeIs .even) ∧
    (({ full with mode := 1#2 } : State).wf = true ∧ ({ full with mode := 1#2 } : State).LenValid ∧
      ({ full with mode := 1#2 } : State).ModeIs .odd) := by decide

/-- CHECK: the clauses that read PCLEN, one off and equal. -/
theorem witness_CheckFlagsTheMismatches :
    (({ tiny with pclen := 8#9 } : State).wf = true ∧ ({ tiny with pclen := 8#9 } : State).LenValid ∧
      ({ tiny with pclen := 8#9 } : State).ModeIs .even ∧
      ({ tiny with pclen := 8#9 } : State).pclen.toNat ≠ ({ tiny with pclen := 8#9 } : State).rows + 8) ∧
    (tiny.wf = true ∧ tiny.LenValid ∧ tiny.ModeIs .even ∧ tiny.pclen.toNat = tiny.rows + 8) ∧
    (full.wf = true ∧ full.LenValid ∧ full.ModeIs .even ∧ full.pclen.toNat = full.rows + 8) := by decide

/-- FLIP: the first and the last bit, and the first index that is refused (also FlipTwiceRestoresThePayload, SingleFlipIsLocated,
SingleFlipIsCorrected). -/
theorem witness_FlipInvertsOneBit :
    hi.wf = true ∧ hi.LenValid ∧ hi.ModeIs .even ∧ 0 < hi.len.toNat ∧ 15 < hi.len.toNat ∧ hi.len.toNat ≤ 16 := by decide

/-- CORRECT: SYNVALID 0 and 1. -/
theorem witness_CorrectFlipsThePairs :
    (hi.wf = true ∧ hi.synvalid = false) ∧ (checked.wf = true ∧ checked.synvalid = true) := by decide

theorem witness_ErrorsChangeNothingElse :
    nextIs (exec .build { hi with len := 12#12 }) (fun t => t.err != 0#4) = true ∧ registerAt 0x00C#32 = .cmd ∧
      nextIs (step { hi with events := [.write 0x00C#32 0xF#32] }) (fun t => t.err != 0#4) = true ∧
      nextIs (step { hi with events := [.write 0x00C#32 0x5#32] }) (fun t => t.err != 0#4) = true := by decide

/-- EveryStepCompletes: the idle step. -/
theorem witness_EveryStepCompletes : hi.events = [] ∧ nextIs (step hi) (fun t => t == hi) = true := by decide

/-- OnlyNoiseAndRunDraw and CheckOnlyReads: commands that answer a next state, with and without an error. -/
theorem witness_next_states :
    nextIs (exec .noise hi) (fun t => t.err == 0#4) = true ∧ nextIs (exec .check hi) (fun t => t.err == 3#4) = true ∧
    nextIs (exec .check received) (fun t => t.err == 0#4) = true := by decide

/-- `checked` keeps SYNVALID's promise: for CommandsLeaveBytesBeyondLen, CorrectFlipsThePairs, CorrectFlipsExactlyNpairsBits and
StepKeepsSyndromeCurrent. -/
theorem witness_SyndromeCurrent : checked.wf = true ∧ checked.SyndromeCurrent ∧ checked.synvalid = true ∧
    nextIs (exec .correct checked) (fun _ => true) = true := by
  refine ⟨by decide, fun _ => ⟨by decide, by decide, .even, by decide, fun i => ?_, by decide⟩, by decide, by decide⟩
  by_cases h : i < 2
  · interval_cases i <;> decide
  · have h1 : checked.rowsyn.getLsbD i = false := getLsbD_of_toNat_lt (n := 2) (by decide) (by omega)
    have h2 : ¬ i < checked.rows := h
    simp [h1, h2]

/-- SynvalidFollowsItsEvents: its six clauses. -/
theorem witness_SynvalidFollowsItsEvents :
    nextIs (exec .check received) (fun t => t.synvalid) = true ∧
    registerAt 0x028#32 ≠ .cmd ∧ registerAt 0x400#32 ≠ .cmd ∧
    nextIs (step { checked with events := [.write 0x028#32 5#32] }) (fun t => t.synvalid) = true ∧
    nextIs (step { checked with events := [.write 0x400#32 0x48#32] }) (fun t => !t.synvalid) = true ∧
    nextIs (step { checked with events := [.read 0x010#32] }) (fun t => t.synvalid) = true ∧
    ({ checked with events := [.reset] } : State).events.head? = some .reset ∧
    nextIs (step { checked with events := [.reset] }) (fun t => !t.synvalid) = true ∧
    ({ checked with events := [.write 0x00C#32 0x7#32] } : State).nextCmdWord = some 0x7#32 ∧
    decode 0x7#32 = .error (.reservedOpcode 7) ∧
    nextIs (step { checked with events := [.write 0x00C#32 0x7#32] }) (fun t => t.synvalid) = true ∧
    received.synvalid = false := by decide

/-- ResultRegistersHaveTheirWriters and FramedUnitHasItsWriters: a step that changes each field they speak of. -/
theorem witness_writers :
    nextIs (step { hi with events := [.write 0x00C#32 5#32] }) (fun t => t.err != hi.err) = true ∧
    nextIs (step { checked with events := [.write 0x00C#32 5#32] })
      (fun t => t.ncorr != checked.ncorr && t.payload != checked.payload) = true ∧
    nextIs (step { received with events := [.write 0x00C#32 4#32] })
      (fun t => t.rowsyn != received.rowsyn && t.colsyn != received.colsyn) = true ∧
    nextIs (step { hi with events := [.write 0x004#32 1#32] }) (fun t => t.mode != hi.mode) = true ∧
    nextIs (step { hi with events := [.write 0x008#32 8#32] }) (fun t => t.len != hi.len) = true ∧
    nextIs (step { hi with events := [.write 0x028#32 8#32] }) (fun t => t.noiseP != hi.noiseP) = true ∧
    nextIs (step { hi with mode := 1#2, events := [.write 0x00C#32 1#32] })
      (fun t => t.cpar != hi.cpar && t.pclen != hi.pclen && t.rpar != hi.rpar) = true := by decide

/-- ClosedFormsOfTheParityCode, SyndromeIsTheParityOfTheChange, UnchangedPayloadFlagsNothing, LengthChangeIsCaughtByCheck. -/
theorem witness_built :
    received.wf = true ∧ received.LenValid ∧ received.ModeIs .even ∧ received.pclen.toNat = received.rows + 8 ∧
    nextIs (exec .build received) (fun _ => true) = true ∧ nextIs (exec .check received) (fun _ => true) = true ∧
    (writeRegister received .len 15#32).FramingBad ∧ (writeRegister received .len 8#32).LenValid ∧
    (8#32 : Word).extractLsb' 0 12 ≠ received.len ∧ (16#32 : Word).extractLsb' 0 12 = received.len := by decide

theorem witness_EveryBitFlippedFlagsNoRow :
    hi.wf = true ∧ hi.LenValid ∧ hi.ModeIs .even ∧
      ∀ f, f < hi.len.toNat → pbit [(0, 0xB7#8), (1, 0x96#8)] f = !pbit hi.payload f := by decide

theorem witness_TwoFlipsInOneRowStayUncorrected :
    hi.wf = true ∧ hi.LenValid ∧ hi.ModeIs .even ∧ 1 < hi.rows ∧ 0 < 7 ∧ 7 < 8 := by decide

theorem witness_ModeMismatchFlagsEverything :
    hi.wf = true ∧ hi.LenValid ∧ hi.ModeIs .even ∧ (writeRegister hi .ctrl 1#32).ModeIs .odd ∧
      ParityMode.even ≠ ParityMode.odd := by decide

/-- NoiseOutcomesAreExactlyTheFlips: no noise, and the least noise with a payload to reach. -/
theorem witness_NoiseOutcomesAreExactlyTheFlips :
    (hi.wf = true ∧ hi.LenValid ∧ hi.noiseP = 0#16) ∧
    (({ hi with noiseP := 1#16 } : State).wf = true ∧ ({ hi with noiseP := 1#16 } : State).LenValid ∧
      ({ hi with noiseP := 1#16 } : State).noiseP ≠ 0#16 ∧ Memory.wf [(0, 0xB7#8)] = true) ∧
    ∀ a, hi.rows ≤ a → Memory.read [(0, 0xB7#8)] a = hi.payload.read a := by
  refine ⟨by decide, by decide, fun a ha => ?_⟩
  have ha' : 2 ≤ a := ha
  show Memory.read [(0, 0xB7#8)] a = Memory.read [(0, 0x48#8), (1, 0x69#8)] a
  simp only [Memory.read]
  rw [if_neg (by omega), if_neg (by omega), if_neg (by omega)]

/-- RunRestoresUpToOneFlip: no noise, and draws of which exactly number 11 is below NOISE_P. -/
theorem witness_RunRestoresUpToOneFlip :
    (hi.wf = true ∧ hi.LenValid ∧ hi.ModeIs .even ∧ hi.noiseP = 0#16) ∧
    ({ hi with noiseP := 0x8000#16, noise := drawsFlipping11 } : State).wf = true ∧ 11 < hi.len.toNat ∧
    drawsFlipping11.answer 11 < 0x8000#16 ∧
    ∀ g, g < hi.len.toNat → g ≠ 11 → ¬ drawsFlipping11.answer g < 0x8000#16 := by
  refine ⟨by decide, by decide, by decide, by decide, fun g hg hg' => ?_⟩
  have hg'' : g < 16 := hg
  interval_cases g <;> first | exact absurd rfl hg' | decide

/-- ParityBitErrorIsNotCorrected: the last row and the last column. -/
theorem witness_ParityBitErrorIsNotCorrected : hi.wf = true ∧ hi.LenValid ∧ hi.ModeIs .even ∧ 1 < hi.rows ∧ 7 < 8 := by decide

theorem witness_ResetEventRestoresEveryField :
    ({ checked with events := [.reset, .read 0x010#32] } : State).events = .reset :: [.read 0x010#32] := by decide

/-- StepKeepsWellFormed: a step that stores, from a full state. -/
theorem witness_StepKeepsWellFormed :
    full.wf = true ∧ nextIs (step { full with events := [.write 0x7FC#32 0#32] }) (fun t => t.payload == [(0, 0x01#8)]) = true := by
  decide

theorem witness_ResetMeetsTheInvariants : 1 ≤ 1 ∧ 1 ≤ 256 ∧ 256 ≤ 256 := by decide

end Sys2Proof.Tests
end

namespace Sys2Proof.Machine

/-! # The register window's derived words and its reserved space (10_state.md R22, R28, R29, R39, R44) -/

/-! ## The counts of a syndrome -/

/-- Rows at and above the capacity are never flagged, so a count over any range of at least the capacity is NROWERR. -/
theorem nRowErr_eq_countP {s : State} (hw : s.wf = true) {n : Nat} (hn : s.maxRows ≤ n) :
    s.nRowErr = (List.range n).countP fun r => s.rowsyn.getLsbD r := by
  obtain ⟨_, _, _, _, _, hrowsyn, _, _⟩ := s.wf_iff.1 hw
  have hzero : ((List.range (n - s.maxRows)).map (s.maxRows + ·)).countP (fun r => s.rowsyn.getLsbD r) = 0 := by
    rw [List.countP_eq_zero]
    intro r hr
    obtain ⟨i, _, rfl⟩ := List.mem_map.1 hr
    simp [getLsbD_of_toNat_lt hrowsyn (Nat.le_add_right s.maxRows i)]
  rw [State.nRowErr, State.rowsList, ← List.countP_eq_length_filter, ← Nat.add_sub_cancel' hn, List.range_add,
    List.countP_append, hzero, Nat.add_zero]

/-- Counting the bits of a byte from either end gives its population count. -/
theorem countP_columns (b : Byte) : (List.range 8).countP (fun k => b.getLsbD (7 - k)) = ones b := by
  have hrev : (List.range 8).reverse = (List.range 8).map (7 - ·) := rfl
  rw [ones, ← List.countP_reverse, hrev, List.countP_map]
  rfl

theorem nColErr_eq_ones (s : State) : s.nColErr = ones s.colsyn := by
  rw [State.nColErr, State.colsList, ← List.countP_eq_length_filter, countP_columns]

/-! ## The first pair -/

/-- The head of a strictly rising list is its least member. -/
theorem headD_of_least {l : List Nat} (hl : l.Pairwise (· < ·)) {a d : Nat} (ha : a ∈ l) (hmin : ∀ b ∈ l, a ≤ b) :
    l.headD d = a := by
  cases l with
  | nil => cases ha
  | cons b l =>
    have hab : a ≤ b := hmin b List.mem_cons_self
    rcases List.mem_cons.1 ha with rfl | ha
    · rfl
    · have hba : b < a := (List.pairwise_cons.1 hl).1 a ha
      omega

/-- LOCVALID says that both lists have a member (R39). -/
theorem locValid_of_mem {s : State} {r c : Nat} (hr : r ∈ s.rowsList) (hc : c ∈ s.colsList) : s.locValid = true :=
  (locValid_iff s).2 ⟨List.length_pos_of_mem hr, List.length_pos_of_mem hc⟩

/-- LOC's three numbers, from the least flagged row and the least flagged column (R29). -/
theorem loc_of_least {s : State} {r c : Nat} (hr : r ∈ s.rowsList) (hrmin : ∀ r' ∈ s.rowsList, r ≤ r')
    (hc : c ∈ s.colsList) (hcmin : ∀ c' ∈ s.colsList, c ≤ c') :
    s.locRow = r ∧ s.locCol = c ∧ s.locBit = 8 * r + c := by
  have hv := locValid_of_mem hr hc
  have hrow : s.locRow = r := by rw [State.locRow, if_pos hv, headD_of_least (rowsList_sorted s) hr hrmin]
  have hcol : s.locCol = c := by rw [State.locCol, if_pos hv, headD_of_least (colsList_sorted s) hc hcmin]
  exact ⟨hrow, hcol, by rw [State.locBit, if_pos hv, hrow, hcol]⟩

theorem rowsList_of_rowsyn_zero {s : State} (h : s.rowsyn = 0#256) : s.rowsList = [] := by
  simp [State.rowsList, h]

theorem colsList_of_colsyn_zero {s : State} (h : s.colsyn = 0#8) : s.colsList = [] := by
  simp [State.colsList, h]

/-- With either half of the syndrome 0 there is no pair (R39). -/
theorem locValid_of_zero {s : State} (h : s.rowsyn = 0#256 ∨ s.colsyn = 0#8) : s.locValid = false := by
  rw [Bool.eq_false_iff, Ne, locValid_iff]
  rintro ⟨hrow, hcol⟩
  rcases h with h | h
  · simp [State.nRowErr, rowsList_of_rowsyn_zero h] at hrow
  · simp [State.nColErr, colsList_of_colsyn_zero h] at hcol

/-- LOC reads 0 when there is no pair (R29). -/
theorem locWord_of_not_locValid {s : State} (h : s.locValid = false) : s.locWord = 0#32 := by
  have hrow : s.locRow = 0 := by simp [State.locRow, h]
  have hcol : s.locCol = 0 := by simp [State.locCol, h]
  have hbit : s.locBit = 0 := by simp [State.locBit, h]
  rw [State.locWord, hrow, hcol, hbit]
  rfl

/-! ## The fields of SYNCNT, LOC and PARAM -/

section Fields
open BitVec (extractLsb'_append_eq_of_le extractLsb'_append_eq_of_add_le)

/-- SYNCNT, field by field (R28). -/
theorem syncntWord_fields (s : State) :
    s.syncntWord.extractLsb' 0 9 = BitVec.ofNat 9 s.nRowErr ∧ s.syncntWord.extractLsb' 9 7 = 0#7 ∧
      s.syncntWord.extractLsb' 16 4 = BitVec.ofNat 4 s.nColErr ∧ s.syncntWord.extractLsb' 20 4 = 0#4 ∧
      s.syncntWord.extractLsb' 24 4 = s.ncorr ∧ s.syncntWord.extractLsb' 28 4 = 0#4 := by
  rw [State.syncntWord]
  refine ⟨?_, ?_, ?_, ?_, ?_, ?_⟩ <;> repeat rw [extractLsb'_append_eq_of_le (by omega)]
  any_goals rw [extractLsb'_append_eq_of_add_le (by omega)]
  all_goals exact BitVec.extractLsb'_eq_self

/-- LOC, field by field (R29). -/
theorem locWord_fields (s : State) :
    s.locWord.extractLsb' 0 8 = BitVec.ofNat 8 s.locRow ∧ s.locWord.extractLsb' 8 3 = BitVec.ofNat 3 s.locCol ∧
      s.locWord.extractLsb' 11 5 = 0#5 ∧ s.locWord.extractLsb' 16 11 = BitVec.ofNat 11 s.locBit ∧
      s.locWord.extractLsb' 27 5 = 0#5 := by
  rw [State.locWord]
  refine ⟨?_, ?_, ?_, ?_, ?_⟩ <;> repeat rw [extractLsb'_append_eq_of_le (by omega)]
  any_goals rw [extractLsb'_append_eq_of_add_le (by omega)]
  all_goals exact BitVec.extractLsb'_eq_self

theorem paramWord_maxRows (s : State) : s.paramWord.extractLsb' 0 16 = BitVec.ofNat 16 s.maxRows := by
  rw [State.paramWord, extractLsb'_append_eq_of_add_le (by omega), BitVec.extractLsb'_eq_self]

end Fields

/-! ## The capacity is constant (R22) -/

theorem successState_maxRows (i : Instr) (m : ParityMode) (s : State) : (successState i m s).maxRows = s.maxRows := by
  cases i <;> rfl

theorem exec_maxRows {i : Instr} {s t : State} (h : exec i s = .next t) : t.maxRows = s.maxRows := by
  rcases exec_next_cases h with ⟨e, rfl⟩ | ⟨m, _, rfl⟩
  · rfl
  · rw [succeed_maxRows, successState_maxRows]

/-- No step changes the capacity, the reset among them. -/
theorem step_maxRows {s t : State} (h : step s = .next t) : t.maxRows = s.maxRows := by
  rcases step_next_cases h with ⟨_, rfl⟩ | ⟨rest, _, rfl⟩ | ⟨off, rest, _, rfl⟩ | ⟨off, v, rest, _, _, rfl⟩ |
    ⟨off, v, rest, i, _, _, _, hexec⟩ | ⟨off, v, rest, e, _, _, _, rfl⟩
  case inl => rfl
  case inr.inl => rfl
  case inr.inr.inl => rfl
  case inr.inr.inr.inl => rw [writeRegister_maxRows]
  case inr.inr.inr.inr.inl => exact (exec_maxRows hexec).trans rfl
  case inr.inr.inr.inr.inr => rfl

/-! ## A step whose input is a register access (R72, R73) -/

theorem step_read {s : State} {off : Word} {rest : List Event} (he : s.events = .read off :: rest) :
    step s = .next (hostRead off { s with events := rest }) := by
  rw [step, nextAccess, he]

theorem step_write_of_ne_cmd {s : State} {off v : Word} {rest : List Event} (he : s.events = .write off v :: rest)
    (hr : registerAt off ≠ .cmd) : step s = .next (writeRegister { s with events := rest } (registerAt off) v) := by
  simp only [step, nextAccess, he, hostWrite_other v _ hr]

/-! ## Reserved space (R44) -/

theorem Register.ne_cmd_of_ignoresWrites {r : Register} (h : r.ignoresWrites = true) : r ≠ .cmd := by
  rintro rfl
  cases h

theorem writeRegister_of_ignoresWrites {r : Register} (h : r.ignoresWrites = true) (s : State) (v : Word) :
    writeRegister s r v = s := by
  cases r
  case param | status | syncnt | loc | colsyn | rowsyn | reserved => rfl
  all_goals cases h

/-- The mask of a field of `w` bits at the bottom of a word. -/
def fieldMask (w : Nat) : Word := (BitVec.allOnes w).zeroExtend 32

theorem getLsbD_fieldMask (w : Nat) {i : Nat} (hi : i < 32) : (fieldMask w).getLsbD i = decide (i < w) := by
  simp [fieldMask, hi]

/-- A zero-extended field reads 0 outside its mask. -/
theorem zeroExtend_and_not_fieldMask {w : Nat} (x : BitVec w) : x.zeroExtend 32 &&& ~~~fieldMask w = 0#32 := by
  refine bitVec_ext fun i hi => ?_
  by_cases hw : i < w
  · simp [getLsbD_fieldMask w hi, hi, hw]
  · simp [BitVec.getLsbD_of_ge x i (by omega)]

/-- A field takes no bit of the word from outside its mask. -/
theorem extractLsb'_and_fieldMask (w : Nat) (hw : w ≤ 32) (v : Word) :
    (v &&& fieldMask w).extractLsb' 0 w = v.extractLsb' 0 w := by
  refine bitVec_ext fun i hi => ?_
  simp [getLsbD_fieldMask w (i := i) (by omega), hi]

/-- A word stays within a mask when each of its parts stays within the mask's part. -/
theorem append_and_not {u w : Nat} {x m : BitVec u} {y n : BitVec w} (hx : x &&& ~~~m = 0#u) (hy : y &&& ~~~n = 0#w) :
    (x ++ y) &&& ~~~(m ++ n) = 0#(u + w) := by
  rw [BitVec.not_append, BitVec.and_append, hx, hy, BitVec.zero_append_zero]

theorem and_not_allOnes {w : Nat} (x : BitVec w) : x &&& ~~~BitVec.allOnes w = 0#w := by
  rw [BitVec.not_allOnes, BitVec.and_zero]

theorem statusWord_reserved (s : State) : s.statusWord &&& ~~~Register.definedBits .status = 0#32 := by
  rw [show Register.definedBits .status =
    0#25 ++ BitVec.allOnes 1 ++ BitVec.allOnes 1 ++ BitVec.allOnes 1 ++ BitVec.allOnes 4 from rfl, State.statusWord]
  exact append_and_not (append_and_not (append_and_not (append_and_not BitVec.zero_and (and_not_allOnes _)) (and_not_allOnes _)) (and_not_allOnes _)) (and_not_allOnes _)

theorem syncntWord_reserved (s : State) : s.syncntWord &&& ~~~Register.definedBits .syncnt = 0#32 := by
  rw [show Register.definedBits .syncnt =
    0#4 ++ BitVec.allOnes 4 ++ 0#4 ++ BitVec.allOnes 4 ++ 0#7 ++ BitVec.allOnes 9 from rfl, State.syncntWord]
  exact append_and_not (append_and_not (append_and_not (append_and_not (append_and_not BitVec.zero_and (and_not_allOnes _)) BitVec.zero_and) (and_not_allOnes _)) BitVec.zero_and) (and_not_allOnes _)

theorem locWord_reserved (s : State) : s.locWord &&& ~~~Register.definedBits .loc = 0#32 := by
  rw [show Register.definedBits .loc =
    0#5 ++ BitVec.allOnes 11 ++ 0#5 ++ BitVec.allOnes 3 ++ BitVec.allOnes 8 from rfl, State.locWord]
  exact append_and_not (append_and_not (append_and_not (append_and_not BitVec.zero_and (and_not_allOnes _)) BitVec.zero_and) (and_not_allOnes _)) (and_not_allOnes _)

theorem paramWord_reserved (s : State) : s.paramWord &&& ~~~Register.definedBits .param = 0#32 := by
  rw [show Register.definedBits .param = 0x00#8 ++ BitVec.allOnes 8 ++ BitVec.allOnes 16 from rfl, State.paramWord]
  exact append_and_not (append_and_not BitVec.zero_and (and_not_allOnes _)) (and_not_allOnes _)

/-- The reserved bits of every register read 0. -/
theorem readRegister_reservedBits (s : State) (r : Register) : readRegister s r &&& ~~~r.definedBits = 0#32 := by
  cases r with
  | param => exact paramWord_reserved s
  | status => exact statusWord_reserved s
  | syncnt => exact syncntWord_reserved s
  | loc => exact locWord_reserved s
  | ctrl => exact zeroExtend_and_not_fieldMask s.mode
  | len => exact zeroExtend_and_not_fieldMask s.len
  | cpar => exact zeroExtend_and_not_fieldMask s.cpar
  | colsyn => exact zeroExtend_and_not_fieldMask s.colsyn
  | pclen => exact zeroExtend_and_not_fieldMask s.pclen
  | noiseP => exact zeroExtend_and_not_fieldMask s.noiseP
  | rpar j => exact zeroExtend_and_not_fieldMask (rowWord s.maxRows s.rpar j)
  | rowsyn j => exact zeroExtend_and_not_fieldMask (rowWord s.maxRows s.rowsyn j)
  | payload i =>
    rw [readRegister]
    split
    · exact zeroExtend_and_not_fieldMask (s.payload.read i)
    · exact BitVec.zero_and
  | cmd => exact BitVec.zero_and
  | reserved => exact BitVec.zero_and

/-- A write ignores the reserved bits of its word. -/
theorem writeRegister_and_definedBits (s : State) (r : Register) (v : Word) :
    writeRegister s r (v &&& r.definedBits) = writeRegister s r v := by
  have hfield (w : Nat) (hw : w ≤ 32) := extractLsb'_and_fieldMask w hw v
  cases r with
  | ctrl => exact congrArg (fun x => { s with mode := x, synvalid := false }) (hfield 2 (by omega))
  | len => exact congrArg (fun x => { s with len := x, synvalid := false }) (hfield 12 (by omega))
  | cpar => exact congrArg (fun x => { s with cpar := x, synvalid := false }) (hfield 8 (by omega))
  | pclen => exact congrArg (fun x => { s with pclen := x, synvalid := false }) (hfield 9 (by omega))
  | noiseP => exact congrArg (fun x => { s with noiseP := x }) (hfield 16 (by omega))
  | rpar j => exact congrArg (writeRegister s (.rpar j)) BitVec.and_allOnes
  | payload i =>
    exact congrArg (fun x => if i < s.maxRows then { s with payload := s.payload.write i x, synvalid := false } else s)
      (hfield 8 (by omega))
  | param | cmd | status | syncnt | loc | colsyn | rowsyn | reserved => rfl

/-! ## The pairs (R39) -/

/-- The `j`-th pair is the `j`-th flagged row with the `j`-th flagged column. -/
theorem pairs_getElem? {s : State} {j : Nat} (hj : j < s.npairs) :
    s.pairs[j]? = some (s.rowsList.getD j 0, s.colsList.getD j 0) := by
  obtain ⟨hrow, hcol⟩ : j < s.rowsList.length ∧ j < s.colsList.length := Nat.lt_min.1 hj
  rw [State.pairs, List.getElem?_zip_eq_some]
  simp [hrow, hcol]

/-! ## The statements -/

/-- Settles O11: the counts fit their fields, for at most 256 rows and 8 columns are flagged. -/
theorem syncntHoldsItsCounts : Obligations.SyncntHoldsItsCounts := by
  intro s hw
  obtain ⟨hrows, hgap9, hcols, hgap20, hncorr, hgap28⟩ := syncntWord_fields s
  have hmax := State.wf_maxRows hw
  have hrowLt := nRowErr_le s
  have hcolLt := nColErr_le s
  refine ⟨?_, ?_, hncorr, hgap9, hgap20, hgap28, rfl, fun _ => rfl⟩
  · rw [← nRowErr_eq_countP hw hmax, readRegister, hrows, BitVec.toNat_ofNat, Nat.mod_eq_of_lt (by omega)]
  · rw [← nColErr_eq_ones, readRegister, hcols, BitVec.toNat_ofNat, Nat.mod_eq_of_lt (by omega)]

/-- Settles O12: a flagged row of a well-formed state lies below the capacity, so the least one heads `rows_list`. -/
theorem locHoldsTheFirstPair : Obligations.LocHoldsTheFirstPair := by
  intro s hw
  obtain ⟨_, hmax, _, _, _, hrowsyn, _, _⟩ := s.wf_iff.1 hw
  refine ⟨fun r c hr hrmin hc8 hc hcmin => ?_, fun hz => locWord_of_not_locValid (locValid_of_zero hz), rfl, fun _ => rfl⟩
  have hrMax : r < s.maxRows := by
    by_contra hge
    rw [getLsbD_of_toNat_lt hrowsyn (by omega)] at hr
    cases hr
  have hrLeast : ∀ r' ∈ s.rowsList, r ≤ r' := fun r' hr' => by
    by_contra hlt
    simp [hrmin r' (by omega)] at hr'
  have hcLeast : ∀ c' ∈ s.colsList, c ≤ c' := fun c' hc' => by
    by_contra hlt
    simp [hcmin c' (by omega)] at hc'
  obtain ⟨hrow, hcol, hbit⟩ :=
    loc_of_least ((mem_rowsList s r).2 ⟨hrMax, hr⟩) hrLeast ((mem_colsList s c).2 ⟨hc8, hc⟩) hcLeast
  obtain ⟨frow, fcol, hgap11, fbit, hgap27⟩ := locWord_fields s
  refine ⟨?_, ?_, ?_, hgap11, hgap27⟩
  · rw [readRegister, frow, hrow, BitVec.toNat_ofNat, Nat.mod_eq_of_lt (by omega)]
  · rw [readRegister, fcol, hcol, BitVec.toNat_ofNat, Nat.mod_eq_of_lt (by omega)]
  · rw [readRegister, fbit, hbit, BitVec.toNat_ofNat, Nat.mod_eq_of_lt (by omega)]

/-- Settles O13: PARAM is a function of the capacity, which no step changes. -/
theorem paramIsConstant : Obligations.ParamIsConstant := by
  intro s hw
  have hmax := State.wf_maxRows hw
  refine ⟨rfl, ?_, rfl, fun _ => rfl, fun t ht => ?_⟩
  · rw [readRegister, paramWord_maxRows, BitVec.toNat_ofNat, Nat.mod_eq_of_lt (by omega)]
  · rw [readRegister, readRegister, State.paramWord, State.paramWord, step_maxRows ht]

/-- Settles O16, a register at a time. -/
theorem reservedSpaceReadsZeroAndIgnoresWrites : Obligations.ReservedSpaceReadsZeroAndIgnoresWrites := by
  refine ⟨fun s off v rest he hr => ?_, fun _ => rfl, fun s r _ => readRegister_reservedBits s r,
    writeRegister_and_definedBits, fun s off v rest h => ?_⟩
  · rw [step_write_of_ne_cmd he (Register.ne_cmd_of_ignoresWrites hr), writeRegister_of_ignoresWrites hr]
  · rcases h with he | ⟨he, hr⟩
    · exact ⟨_, step_read he, hostRead_err _ _⟩
    · exact ⟨_, step_write_of_ne_cmd he hr, writeRegister_err _ _ _⟩

/-- Settles O30: the lists are filters of ascending ranges, and the pairs zip them. -/
theorem derivedViewsAreAsSpecified : Obligations.DerivedViewsAreAsSpecified := fun s =>
  ⟨rowsList_sorted s, mem_rowsList s, colsList_sorted s, mem_colsList s, rfl, rfl, single_iff s, locValid_iff s, rfl,
    pairs_length s, fun _ hj => pairs_getElem? hj⟩

end Sys2Proof.Machine

namespace Sys2Proof

/-! # The command decoder (30_encoding.md R103, R105) -/

/-- OP 0x7 and above is reserved (R105). -/
theorem decode_of_seven_le {v : Word} (h : 7 ≤ opField v) : decode v = .error (.reservedOpcode (opField v)) := by
  obtain ⟨k, hk⟩ := Nat.exists_eq_add_of_le' h
  rw [decode, hk]
  rfl

theorem decode_flip {v : Word} (h : opField v = 2) : decode v = .ok (.flip (argField v)) := by
  rw [decode, h]
  rfl

/-- The decoder reads OP, and ARG for FLIP, and nothing else of the word (R103). -/
theorem decode_congr {v w : Word} (hop : opField v = opField w) (harg : opField v = 2 → argField v = argField w) :
    decode v = decode w := by
  by_cases hflip : opField v = 2
  · rw [decode_flip hflip, decode_flip (hop ▸ hflip), harg hflip]
  · rw [decode, decode, ← hop]
    split
    case h_3 h2 => exact absurd h2 hflip
    all_goals rfl

end Sys2Proof

namespace Sys2Proof.Machine

/-! ## A step whose input is a CMD write (R73, R105) -/

theorem step_write_command {s : State} {off v : Word} {rest : List Event} {i : Instr} (he : s.events = .write off v :: rest)
    (hr : registerAt off = .cmd) (hd : decode v = .ok i) : step s = exec i { s with events := rest } := by
  simp only [step, nextAccess, he, hostWrite_command _ hr hd]

theorem step_write_reserved {s : State} {off v : Word} {rest : List Event} {e : DecodeError}
    (he : s.events = .write off v :: rest) (hr : registerAt off = .cmd) (hd : decode v = .error e) :
    step s = .next (raiseError .illegalCommand { s with events := rest }) := by
  simp only [step, nextAccess, he, hostWrite_reserved _ hr hd]

/-- A CMD write acts through its decoded word alone. -/
theorem step_write_cmd_congr {off v w : Word} (s : State) (rest : List Event) (hr : registerAt off = .cmd)
    (hd : decode v = decode w) :
    step { s with events := .write off v :: rest } = step { s with events := .write off w :: rest } := by
  cases hw : decode w with
  | ok i => rw [step_write_command rfl hr (hd.trans hw), step_write_command rfl hr hw]
  | error e => rw [step_write_reserved rfl hr (hd.trans hw), step_write_reserved rfl hr hw]

/-! ## The statements -/

/-- Settles O4: the step sees the word through the decoder, which sees only OP and FLIP's ARG. -/
theorem ignoredBitsDoNotMatter : Obligations.IgnoredBitsDoNotMatter := by
  intro s off v w rest hoff hop harg
  have hargField : opField v = 2 → argField v = argField w := fun h2 =>
    congrArg BitVec.toNat (harg (BitVec.eq_of_toNat_eq h2))
  exact step_write_cmd_congr s rest ((registerAt_eq_cmd_iff off).2 hoff) (decode_congr (congrArg BitVec.toNat hop) hargField)

/-- Settles O3: every OP from 0x7 up decodes to an error, and ILLEGAL_COMMAND's code is 7. -/
theorem reservedOpcodeRaisesIllegalCommand : Obligations.ReservedOpcodeRaisesIllegalCommand := by
  intro s off v rest he hoff hop
  exact step_write_reserved he ((registerAt_eq_cmd_iff off).2 hoff) (decode_of_seven_le hop)

end Sys2Proof.Machine

namespace Sys2Proof.Machine

/-! # BUILD and CHECK (40_codec.md R123, R124, R125) -/

/-- A valid LEN of a well-formed state never reaches past the 256 bits of RPAR and ROWSYN (R12, R20). -/
theorem State.rows_le_of_valid {s : State} (hw : s.wf = true) (hl : s.LenValid) : s.rows ≤ 256 := by
  obtain ⟨_, _, hrows⟩ := State.rows_of_valid hl
  exact hrows.trans (State.wf_maxRows hw)

/-- What a successful BUILD changes: the parity code, SYNVALID and ERR (R123). -/
theorem succeed_buildStage_frame (m : ParityMode) (s : State) :
    succeed (buildStage m s) = { s with
      rpar := rowParities m s.payload s.rows, cpar := colParities m s.payload s.rows,
      pclen := BitVec.ofNat 9 (s.rows + 8), synvalid := false, err := 0#4 } := rfl

/-- What a successful CHECK changes: the syndrome, SYNVALID and ERR (R124). -/
theorem succeed_checkStage_frame (m : ParityMode) (s : State) :
    succeed (checkStage m s) = { s with
      rowsyn := (checkStage m s).rowsyn, colsyn := (checkStage m s).colsyn, synvalid := true, err := 0#4 } := rfl

/-! ## The statements -/

/-- Settles O19: the checks of R219 in their order, then the masks of row and column parities, which hold every row of a valid
LEN. -/
theorem buildStoresTheParityCode : Obligations.BuildStoresTheParityCode := by
  intro s hw
  refine ⟨fun hf => execBuild_error (checkLen_of_framing hf), fun hlen => execBuild_error (checkLen_of_length hlen),
    fun hl hbad => execBuild_modeBad hl hbad, fun m hl hm => ?success⟩
  case success =>
    have hrows : s.rows ≤ 256 := State.rows_le_of_valid hw hl
    refine ⟨succeed (buildStage m s), execBuild_ok hl hm, fun i => ?rowParity, fun k hk => ?colParity, ?codeLength,
      rfl, rfl, fun _ => rfl, succeed_buildStage_frame m s⟩
    case rowParity => rw [succeed_rpar, buildStage_rpar, getLsbD_rowParities m s.payload hrows]
    case colParity => rw [succeed_cpar, buildStage_cpar, getLsbD_colParities m s.payload s.rows hk]
    case codeLength => rw [succeed_pclen, buildStage_pclen, State.pclen_of_rows hw hl]

/-- Settles O20: the checks of R219 in their order, then the two halves of the syndrome bit by bit. -/
theorem checkFlagsTheMismatches : Obligations.CheckFlagsTheMismatches := by
  intro s hw
  refine ⟨fun hf => execCheck_error (checkLen_of_framing hf), fun hlen => execCheck_error (checkLen_of_length hlen),
    fun hl hbad => execCheck_modeBad hl hbad, fun m hl hm hne => execCheck_codeLength hl hm hne,
    fun m hl hm hp => ?success⟩
  case success =>
    have hrows : s.rows ≤ 256 := State.rows_le_of_valid hw hl
    refine ⟨succeed (checkStage m s), execCheck_ok hl hm hp, fun i => ?rowFlag, fun k hk => ?colFlag,
      rfl, rfl, fun _ => rfl, succeed_checkStage_frame m s⟩
    case rowFlag => rw [succeed_rowsyn, getLsbD_checkStage_rowsyn hrows]
    case colFlag => rw [succeed_colsyn, getLsbD_checkStage_colsyn m s hk]

/-- Settles O28: an error writes ERR alone, and CHECK's stage writes only the syndrome and SYNVALID. -/
theorem checkOnlyReads : Obligations.CheckOnlyReads := by
  intro s t h
  rcases exec_next_cases h with ⟨e, rfl⟩ | ⟨m, _, rfl⟩
  case inl => simp
  case inr =>
    have hstage : successState .check m s = checkStage m s := rfl
    simp [hstage]

end Sys2Proof.Machine

namespace Sys2Proof.Machine

/-! # FLIP and NOISE (41_channel.md R150, R151, R153) -/

/-- What a successful FLIP changes: one bit of the payload, SYNVALID and ERR (R150). -/
theorem succeed_flipStage_frame (f : Nat) (s : State) :
    succeed (flipStage f s) = { s with payload := flipBit s.payload f, synvalid := false, err := 0#4 } := rfl

/-- What a successful NOISE changes: the payload, the noise source, SYNVALID and ERR (R151). -/
theorem succeed_transmitStage_frame (s : State) :
    succeed (transmitStage s) = { s with
      payload := (transmitStage s).payload, noise := (transmitStage s).noise, synvalid := false, err := 0#4 } := rfl

/-- NOISE draws for bit `f` with its draw number `f`, and for the bits below LEN alone (R151). -/
theorem pbit_transmitStage {s : State} (hp : s.payload.wf = true) (f : Nat) :
    pbit (transmitStage s).payload f =
      (pbit s.payload f ^^ (decide (f < s.len.toNat) && decide ((s.noise.answer f).toNat < s.noiseP.toNat))) := by
  rw [transmitStage_payload, pbit_transmit s.noiseP s.len.toNat 0 hp]
  simp [BitVec.lt_def]

/-- The bits that a valid LEN covers end with row `n - 1` (R12, R151). -/
theorem read_transmitStage_of_rows_le {s : State} (hp : s.payload.wf = true) (hl : s.LenValid) {a : Nat}
    (ha : s.rows ≤ a) : (transmitStage s).payload.read a = s.payload.read a := by
  obtain ⟨hlen, _, _⟩ := State.rows_of_valid hl
  have hbits : 0 + s.len.toNat ≤ 8 * s.rows := by omega
  exact read_transmit_of_le s.noiseP s.len.toNat 0 s.rows hp s.noise hbits ha

/-! ## The statements -/

/-- Settles O21: the checks of R219 in their order, then the one inverted bit, whose row is the only one stored to. -/
theorem flipInvertsOneBit : Obligations.FlipInvertsOneBit := by
  intro s f hw
  refine ⟨fun hf => execFlip_error (checkLen_of_framing hf), fun hlen => execFlip_error (checkLen_of_length hlen),
    fun hl hge => execFlip_index hl hge, fun hl hlt => ?success⟩
  case success =>
    refine ⟨succeed (flipStage f s), execFlip_ok hl hlt, fun g => ?bits, fun a ha => ?otherRows,
      rfl, rfl, succeed_flipStage_frame f s⟩
    case bits => rw [succeed_payload, flipStage_payload, pbit_flipBit (State.wf_payload hw)]
    case otherRows => rw [succeed_payload, flipStage_payload, read_flipBit_of_ne _ ha]

/-- Settles O22: the checks of R219 in their order, then NOISE's loop over the LEN bits, one draw each. -/
theorem noiseFlipsTheBitsBelowThreshold : Obligations.NoiseFlipsTheBitsBelowThreshold := by
  intro s hw
  have hp : s.payload.wf = true := State.wf_payload hw
  refine ⟨fun hf => execNoise_error (checkLen_of_framing hf), fun hlen => execNoise_error (checkLen_of_length hlen),
    fun hl => ?success⟩
  case success =>
    refine ⟨succeed (transmitStage s), execNoise_ok hl, fun f => ?bits, fun a ha => ?rowsBeyond, ?draws,
      rfl, rfl, succeed_transmitStage_frame s⟩
    case bits => rw [succeed_payload, pbit_transmitStage hp]
    case rowsBeyond => rw [succeed_payload, read_transmitStage_of_rows_le hp hl ha]
    case draws => rw [succeed_noise, transmitStage_noise, transmit_noise]

end Sys2Proof.Machine

namespace Sys2Proof.Machine

/-! # CORRECT (42_corrector.md R170) -/

/-- What a successful CORRECT changes: the payload, NCORR, SYNVALID and ERR (R170). -/
theorem succeed_correctStage_frame (s : State) :
    succeed (correctStage s) = { s with
      payload := (correctStage s).payload, ncorr := (correctStage s).ncorr, synvalid := false, err := 0#4 } := rfl

/-- NCORR holds the number of pairs without loss, for at most 8 columns are flagged (R41). -/
theorem toNat_correctStage_ncorr (s : State) : (correctStage s).ncorr.toNat = s.npairs := by
  have hle : s.npairs ≤ 8 := npairs_le s
  rw [correctStage_ncorr, BitVec.toNat_ofNat, Nat.mod_eq_of_lt (by omega)]

/-- A syndrome that keeps SYNVALID's promise flags only rows of the framed payload (R40, R124). -/
theorem State.SyndromeCurrent.row_lt {s : State} (hc : s.SyndromeCurrent) (hv : s.synvalid = true) {r : Nat}
    (hr : r ∈ s.rowsList) : r < s.rows := by
  obtain ⟨_, _, m, _, hrowsyn, _⟩ := hc hv
  obtain ⟨_, hflag⟩ := (mem_rowsList s r).1 hr
  have hmismatch : (decide (r < s.rows) && (rowParity m s.payload r ^^ s.rpar.getLsbD r)) = true :=
    (hrowsyn r).symm.trans hflag
  exact of_decide_eq_true (Bool.and_eq_true_iff.1 hmismatch).1

/-- The bits that such a syndrome lets CORRECT invert lie below LEN: row below `n`, column below 8 (R170). -/
theorem State.SyndromeCurrent.flatIndex_lt_len {s : State} (hc : s.SyndromeCurrent) (hv : s.synvalid = true)
    {rc : Nat × Nat} (h : rc ∈ s.pairs) : flatIndex rc < s.len.toNat := by
  obtain ⟨hlen, _⟩ := hc hv
  obtain ⟨hbits, _, _⟩ := State.rows_of_valid hlen
  obtain ⟨hrow, hcol⟩ := mem_pairs h
  have hr : rc.1 < s.rows := hc.row_lt hv hrow
  obtain ⟨hk, _⟩ := (mem_colsList s rc.2).1 hcol
  rw [flatIndex]
  omega

/-! ## The statement -/

/-- Settles O23: SYNVALID's check, then the distinct bits at the pairs, whose rows are the only ones stored to. -/
theorem correctFlipsThePairs : Obligations.CorrectFlipsThePairs := by
  intro s hw
  refine ⟨fun hv => execCorrect_noSyndrome hv, fun hv => ?success, fun hc hv rc h => hc.flatIndex_lt_len hv h⟩
  case success =>
    refine ⟨succeed (correctStage s), execCorrect_ok hv, fun f => ?bits, fun a ha => ?otherRows, ?count,
      rfl, rfl, succeed_correctStage_frame s⟩
    case bits => exact pbit_correctStage (State.wf_payload hw) f
    case otherRows => rw [succeed_payload, read_correctStage_of_not_mem s ha]
    case count => rw [succeed_ncorr, toNat_correctStage_ncorr]

end Sys2Proof.Machine

namespace Sys2Proof.Machine

/-! # NOP and RUN (43_control.md R190, R191) -/

/-! ## A command that starts where another one ended with success: no stage reads the result code -/

theorem execNoise_after_succeed {s : State} (hl : s.LenValid) :
    execNoise (succeed s) = .next (succeed (transmitStage s)) := by
  rw [execNoise_ok (s := succeed s) hl, transmitStage_after_succeed, succeed_succeed]

theorem execCheck_after_succeed {s : State} {m : ParityMode} (hl : s.LenValid) (hm : s.ModeIs m)
    (hp : s.pclen.toNat = s.rows + 8) : execCheck (succeed s) = .next (succeed (checkStage m s)) := by
  rw [execCheck_ok (s := succeed s) hl hm hp, checkStage_after_succeed, succeed_succeed]

theorem execCorrect_after_succeed {s : State} (hv : s.synvalid = true) :
    execCorrect (succeed s) = .next (succeed (correctStage s)) := by
  rw [execCorrect_ok (s := succeed s) hv, correctStage_after_succeed, succeed_succeed]

/-! ## What RUN's stages leave unchanged -/

/-- CHECK flags no row from `n` on (R124). -/
theorem row_lt_of_mem_checkStage_rowsList {m : ParityMode} {s : State} (hn : s.rows ≤ 256) {r : Nat}
    (hr : r ∈ (checkStage m s).rowsList) : r < s.rows := by
  obtain ⟨_, hflag⟩ := (mem_rowsList _ r).1 hr
  rw [getLsbD_checkStage_rowsyn hn] at hflag
  exact of_decide_eq_true (Bool.and_eq_true_iff.1 hflag).1

/-- So CORRECT right after CHECK stores to no row from `n` on (R170). -/
theorem read_correctStage_checkStage_of_rows_le {m : ParityMode} {s : State} (hn : s.rows ≤ 256) {a : Nat}
    (ha : s.rows ≤ a) : (correctStage (checkStage m s)).payload.read a = s.payload.read a := by
  refine read_correctStage_of_not_mem (checkStage m s) fun hmem => ?_
  obtain ⟨rc, hrc, rfl⟩ := List.mem_map.1 hmem
  have hlt : rc.1 < s.rows := row_lt_of_mem_checkStage_rowsList hn (mem_pairs hrc).1
  omega

/-- What a successful RUN changes: the parity code, the payload, the syndrome, NCORR, SYNVALID, ERR and the noise source
(R191). -/
theorem succeed_runStages_frame (m : ParityMode) (s : State) :
    succeed (successState .run m s) = { s with
      rpar := (successState .run m s).rpar, cpar := (successState .run m s).cpar,
      pclen := (successState .run m s).pclen, payload := (successState .run m s).payload,
      rowsyn := (successState .run m s).rowsyn, colsyn := (successState .run m s).colsyn,
      ncorr := (successState .run m s).ncorr, synvalid := false, err := 0#4,
      noise := (successState .run m s).noise } := rfl

/-! ## The statements -/

/-- Settles O18: NOP computes the state it started in, and ending with success writes ERR alone. -/
theorem nopReportsSuccess : Obligations.NopReportsSuccess := fun s => complete_ok s s

/-- Settles O24: the checks of R219 in their order, then the four commands from one stage's state to the next. LEN and MODE
outlast every stage, BUILD stores the PCLEN that CHECK asks for, and CHECK sets the SYNVALID that CORRECT asks for. -/
theorem runIsTheWholePipeline : Obligations.RunIsTheWholePipeline := by
  intro s hw
  refine ⟨fun hf => execRun_error (checkLen_of_framing hf), fun hlen => execRun_error (checkLen_of_length hlen),
    fun hl hbad => execRun_modeBad hl hbad, fun m hl hm => ?success⟩
  case success =>
    have hcode : (transmitStage (buildStage m s)).pclen.toNat = (transmitStage (buildStage m s)).rows + 8 :=
      State.pclen_of_rows hw hl
    have hrows : (transmitStage (buildStage m s)).rows ≤ 256 := State.rows_le_of_valid (s := s) hw hl
    refine ⟨succeed (buildStage m s), succeed (transmitStage (buildStage m s)),
      succeed (checkStage m (transmitStage (buildStage m s))), succeed (successState .run m s),
      execBuild_ok hl hm, execNoise_after_succeed hl, execCheck_after_succeed hl hm hcode,
      execCorrect_after_succeed (checkStage_synvalid m _), execRun_ok hl hm,
      rfl, rfl, rfl, rfl, rfl, rfl, rfl, ?draws, fun a ha => ?rowsBeyond, succeed_runStages_frame m s⟩
    case draws => exact transmit_noise s.noiseP s.len.toNat 0 s.payload s.noise
    case rowsBeyond =>
      calc (succeed (successState .run m s)).payload.read a
        _ = (transmitStage (buildStage m s)).payload.read a := read_correctStage_checkStage_of_rows_le hrows ha
        _ = (buildStage m s).payload.read a := read_transmitStage_of_rows_le (State.wf_payload hw) hl ha
        _ = s.payload.read a := by rw [buildStage_payload]

end Sys2Proof.Machine

namespace Sys2Proof.Machine

/-! # The result codes over all commands (60_exceptions.md R216, R219) -/

/-! ## The code a command's checks end with -/

/-- The code that ERR holds when a command's checks and stages end with `r` (R210). -/
def endCode : Except CommandError State → BitVec 4
  | .ok _ => 0#4
  | .error e => e.code

/-- A command completes, with the code its body ended with (R216, R220). -/
theorem complete_err {s : State} {r : Except CommandError State} {c : BitVec 4} (h : endCode r = c) :
    ∃ t, complete s r = .next t ∧ t.err = c := by
  cases r with
  | ok t => exact ⟨succeed t, rfl, h⟩
  | error e => exact ⟨raiseError e s, rfl, h⟩

/-! ## Each check of R219, followed by the rest of its command's body -/

/-- A MODE that names a mode is not refused (R24). -/
theorem State.ModeIs.not_modeBad {s : State} {m : ParityMode} (h : s.ModeIs m) : ¬ s.ModeBad := by
  rcases h with ⟨hm, _⟩ | ⟨hm, _⟩ <;> simp [State.ModeBad, hm]

section Checks
variable (s : State)

theorem endCode_checkLen (k : Unit → Except CommandError State) :
    endCode (checkLen s >>= k) = if s.FramingBad then 1#4 else if s.LengthBad then 4#4 else endCode (k ()) := by
  rcases s.len_cases with hf | hb | hl
  · rw [checkLen_of_framing hf, if_pos hf]; rfl
  · rw [checkLen_of_length hb, if_neg (not_not.2 hb.1), if_pos hb]; rfl
  · have hnb : ¬ s.LengthBad := by
      obtain ⟨_, hpos, hcap⟩ := hl
      rintro ⟨_, hbad⟩
      omega
    rw [checkLen_of_valid hl, if_neg (not_not.2 hl.1), if_neg hnb]; rfl

/-- `k` may use the mode, but its code may not depend on it: so for BUILD, CHECK and RUN. -/
theorem endCode_checkMode {k : ParityMode → Except CommandError State} {c : BitVec 4} (hk : ∀ m, endCode (k m) = c) :
    endCode (checkMode s >>= k) = if s.ModeBad then 2#4 else c := by
  rcases s.mode_cases with hb | ⟨m, hm⟩
  · rw [checkMode_of_bad hb, if_pos hb]; rfl
  · rw [checkMode_of_is hm, if_neg hm.not_modeBad, ← hk m]; rfl

theorem endCode_checkCodeLength (k : Unit → Except CommandError State) :
    endCode (checkCodeLength s >>= k) = if s.pclen.toNat = s.rows + 8 then endCode (k ()) else 3#4 := by
  by_cases h : s.pclen.toNat = s.rows + 8
  · rw [checkCodeLength_of_eq h, if_pos h]; rfl
  · rw [checkCodeLength_of_ne h, if_neg h]; rfl

theorem endCode_checkIndex (f : Nat) (k : Unit → Except CommandError State) :
    endCode (checkIndex f s >>= k) = if f < s.len.toNat then endCode (k ()) else 5#4 := by
  by_cases h : f < s.len.toNat
  · rw [checkIndex_of_lt h, if_pos h]; rfl
  · rw [checkIndex_of_ge (Nat.le_of_not_lt h), if_neg h]; rfl

theorem endCode_checkSyndrome (k : Unit → Except CommandError State) :
    endCode (checkSyndrome s >>= k) = if s.synvalid then endCode (k ()) else 6#4 := by
  cases h : s.synvalid with
  | true => rw [checkSyndrome_of_valid h]; rfl
  | false => rw [checkSyndrome_of_not h]; rfl

end Checks

/-! ## Every command, and every CMD write -/

/-- The checks of each command, in the order its body makes them, are those of its row of R219's table. -/
theorem exec_err (i : Instr) (s : State) : ∃ t, exec i s = .next t ∧ t.err = resultCode i s := by
  cases i with
  | nop => exact ⟨succeed s, rfl, rfl⟩
  | build | run =>
    refine complete_err ?_
    rw [endCode_checkLen, endCode_checkMode (c := 0#4)]
    case hk => exact fun _ => rfl
    rfl
  | flip f =>
    refine complete_err ?_
    rw [endCode_checkLen, endCode_checkIndex]
    rfl
  | noise => exact complete_err (endCode_checkLen s _)
  | check =>
    refine complete_err ?_
    rw [endCode_checkLen, endCode_checkMode (c := if s.pclen.toNat = s.rows + 8 then 0#4 else 3#4)]
    case hk => exact fun _ => endCode_checkCodeLength s _
    rfl
  | correct => exact complete_err (endCode_checkSyndrome s _)

/-- No check reads the inputs still to come. -/
theorem resultCode_events (i : Instr) (s : State) (es : List Event) :
    resultCode i { s with events := es } = resultCode i s := rfl

/-- A command that ends with a nonzero ERR raised an error, so it wrote ERR alone. -/
theorem exec_error_frame {i : Instr} {s t : State} (h : exec i s = .next t) (he : t.err ≠ 0#4) :
    t = { s with err := t.err } := by
  rcases exec_next_cases h with ⟨e, rfl⟩ | ⟨m, _, rfl⟩
  case inl => rfl
  case inr => exact absurd (succeed_err _) he

/-! ## The statements -/

/-- Settles O25: a command's success clears ERR, so a nonzero ERR comes from `raiseError`, as it does for a reserved opcode. -/
theorem errorsChangeNothingElse : Obligations.ErrorsChangeNothingElse := by
  refine ⟨fun i s t => exec_error_frame, fun s t off v rest hev hr hstep he => ?cmdWrite⟩
  case cmdWrite =>
    cases hd : decode v with
    | ok i => exact exec_error_frame ((step_write_command hev hr hd).symm.trans hstep) he
    | error e =>
      rw [step_write_reserved hev hr hd] at hstep
      cases hstep
      rfl

/-- Settles O26: `exec_err` for the commands; a CMD write runs its command on the state without the input, which no check
reads, and a reserved opcode runs none. -/
theorem firstFailingCheckGivesTheCode : Obligations.FirstFailingCheckGivesTheCode := by
  refine ⟨exec_err, fun s off v rest hev hr => ?cmdWrite⟩
  case cmdWrite =>
    cases hd : decode v with
    | ok i =>
      obtain ⟨t, hexec, hcode⟩ := exec_err i { s with events := rest }
      exact ⟨t, (step_write_command hev hr hd).trans hexec, hcode.trans (resultCode_events i s rest)⟩
    | error e => exact ⟨_, step_write_reserved hev hr hd, rfl⟩

end Sys2Proof.Machine

namespace Sys2Proof.Machine

/-! # The reset values (70_reset_and_hazards.md R241) -/

/-! ## The counts and SINGLE of an empty syndrome (R39) -/

theorem nRowErr_of_rowsyn_zero {s : State} (h : s.rowsyn = 0#256) : s.nRowErr = 0 := by
  rw [State.nRowErr, rowsList_of_rowsyn_zero h, List.length_nil]

theorem nColErr_of_colsyn_zero {s : State} (h : s.colsyn = 0#8) : s.nColErr = 0 := by
  rw [State.nColErr, colsList_of_colsyn_zero h, List.length_nil]

/-- With either half of the syndrome 0 there is no single flagged pair. -/
theorem single_of_zero {s : State} (h : s.rowsyn = 0#256 ∨ s.colsyn = 0#8) : s.single = false := by
  rw [Bool.eq_false_iff, Ne, single_iff]
  rintro ⟨hrow, hcol⟩
  rcases h with h | h
  · simp [nRowErr_of_rowsyn_zero h] at hrow
  · simp [nColErr_of_colsyn_zero h] at hcol

/-! ## The statement -/

/-- Settles O49: the stored fields are those the record was built with, and the derived values follow from its two empty
syndromes, at any capacity: no row below it is flagged. -/
theorem resetValues : Obligations.ResetValues := by
  intro n
  have hrowsyn : (State.resetWith n).rowsyn = 0#256 := rfl
  have hcolsyn : (State.resetWith n).colsyn = 0#8 := rfl
  have hloc : (State.resetWith n).locValid = false := locValid_of_zero (.inl hrowsyn)
  refine ⟨rfl, rfl, Memory.read_nil, fun _ => BitVec.getLsbD_zero, rfl, rfl, rfl, fun _ => BitVec.getLsbD_zero, hcolsyn,
    rfl, rfl, rfl, ?param, ?nRowErr, ?nColErr, ?single, hloc, ?loc⟩
  case param => rfl
  case nRowErr => exact nRowErr_of_rowsyn_zero hrowsyn
  case nColErr => exact nColErr_of_colsyn_zero hcolsyn
  case single => exact single_of_zero (.inl hrowsyn)
  case loc => exact locWord_of_not_locValid hloc

end Sys2Proof.Machine

namespace Sys2Proof.Machine

/-! # The invariants of every step (10_state.md R8, R20, R40, R41, R210) -/

/-! ## The storage stays well formed -/

/-- A mask built below `n` fits any capacity from `n` on. -/
theorem bitsBelow_toNat_lt_of_le (w : Nat) {n k : Nat} (hn : n ≤ k) (f : Nat → Bool) : (bitsBelow w n f).toNat < 2 ^ k :=
  (bitsBelow_toNat_lt w n f).trans_le (Nat.pow_le_pow_right (by omega) hn)

theorem buildStage_wf (m : ParityMode) {s : State} (hw : s.wf = true) (hl : s.LenValid) : (buildStage m s).wf = true := by
  obtain ⟨hmin, hmax, hpay, hin, _, hrowsyn, herr, hcorr⟩ := s.wf_iff.1 hw
  obtain ⟨_, _, hrows⟩ := State.rows_of_valid hl
  exact (State.wf_iff _).2 ⟨hmin, hmax, hpay, hin, bitsBelow_toNat_lt_of_le 256 hrows _, hrowsyn, herr, hcorr⟩

theorem checkStage_wf (m : ParityMode) {s : State} (hw : s.wf = true) (hl : s.LenValid) : (checkStage m s).wf = true := by
  obtain ⟨hmin, hmax, hpay, hin, hrpar, _, herr, hcorr⟩ := s.wf_iff.1 hw
  obtain ⟨_, _, hrows⟩ := State.rows_of_valid hl
  exact (State.wf_iff _).2 ⟨hmin, hmax, hpay, hin, hrpar, bitsBelow_toNat_lt_of_le 256 hrows _, herr, hcorr⟩

theorem flipStage_wf {f : Nat} {s : State} (hw : s.wf = true) (hl : s.LenValid) (hf : f < s.len.toNat) :
    (flipStage f s).wf = true := by
  obtain ⟨hmin, hmax, hpay, hin, hrpar, hrowsyn, herr, hcorr⟩ := s.wf_iff.1 hw
  obtain ⟨hlen, _, hrows⟩ := State.rows_of_valid hl
  have hrow : f / 8 < s.maxRows := by omega
  exact (State.wf_iff _).2 ⟨hmin, hmax, wf_flipBit hpay f, within_flipBit hin hrow, hrpar, hrowsyn, herr, hcorr⟩

theorem transmitStage_wf {s : State} (hw : s.wf = true) (hl : s.LenValid) : (transmitStage s).wf = true := by
  obtain ⟨hmin, hmax, hpay, hin, hrpar, hrowsyn, herr, hcorr⟩ := s.wf_iff.1 hw
  obtain ⟨hlen, _, hrows⟩ := State.rows_of_valid hl
  exact (State.wf_iff _).2 ⟨hmin, hmax, wf_transmit _ _ _ hpay _, within_transmit _ _ _ _ hin _ (by omega), hrpar, hrowsyn,
    herr, hcorr⟩

/-- CORRECT stores to flagged rows, which lie below the capacity, and counts at most 8 pairs (R41, R170). -/
theorem correctStage_wf {s : State} (hw : s.wf = true) : (correctStage s).wf = true := by
  obtain ⟨hmin, hmax, hpay, hin, hrpar, hrowsyn, herr, _⟩ := s.wf_iff.1 hw
  have hcorr : (correctStage s).ncorr.toNat ≤ 8 := by rw [toNat_correctStage_ncorr]; exact npairs_le s
  exact (State.wf_iff _).2 ⟨hmin, hmax, wf_correctStage hpay, within_correctStage hin, hrpar, hrowsyn, herr, hcorr⟩

theorem CommandError.code_le_seven (e : CommandError) : e.code.toNat ≤ 7 := by cases e <;> decide

/-- Storing a produced code in ERR keeps the state well formed (R210). -/
theorem wf_with_err {s : State} (hw : s.wf = true) {c : BitVec 4} (hc : c.toNat ≤ 7) :
    State.wf { s with err := c } = true := by
  obtain ⟨hmin, hmax, hpay, hin, hrpar, hrowsyn, _, hcorr⟩ := s.wf_iff.1 hw
  exact (State.wf_iff _).2 ⟨hmin, hmax, hpay, hin, hrpar, hrowsyn, hc, hcorr⟩

theorem raiseError_wf (e : CommandError) {s : State} (hw : s.wf = true) : (raiseError e s).wf = true :=
  wf_with_err hw e.code_le_seven

theorem succeed_wf {s : State} (hw : s.wf = true) : (succeed s).wf = true := wf_with_err hw (by decide)

/-- The stages of a command whose checks pass keep the state well formed; RUN's four pass it on to each other. -/
theorem successState_wf {i : Instr} {m : ParityMode} {s : State} (hw : s.wf = true) (hc : checksPass i m s) :
    (successState i m s).wf = true := by
  cases i with
  | nop => exact hw
  | build => exact buildStage_wf m hw hc.1
  | flip f => exact flipStage_wf hw hc.1 hc.2
  | noise => exact transmitStage_wf hw hc
  | check => exact checkStage_wf m hw hc.1
  | correct => exact correctStage_wf hw
  | run =>
    obtain ⟨hl, _⟩ := hc
    exact correctStage_wf (checkStage_wf m (transmitStage_wf (buildStage_wf m hw hl) hl) hl)

theorem exec_wf {i : Instr} {s t : State} (hw : s.wf = true) (h : exec i s = .next t) : t.wf = true := by
  rcases exec_next_cases h with ⟨e, rfl⟩ | ⟨m, hc, rfl⟩
  · exact raiseError_wf e hw
  · exact succeed_wf (successState_wf hw hc)

/-- A register write stores canonical rows below the capacity alone (R35, R37). -/
theorem writeRegister_wf {s : State} (hw : s.wf = true) (r : Register) (v : Word) : (writeRegister s r v).wf = true := by
  obtain ⟨hmin, hmax, hpay, hin, _, hrowsyn, herr, hcorr⟩ := s.wf_iff.1 hw
  cases r with
  | rpar j =>
    exact (State.wf_iff _).2 ⟨hmin, hmax, hpay, hin, bitsBelow_toNat_lt_of_le 256 le_rfl _, hrowsyn, herr, hcorr⟩
  | payload i =>
    rw [writeRegister]
    split
    case isTrue hi =>
      obtain ⟨_, _, _, _, hrpar, _⟩ := s.wf_iff.1 hw
      exact (State.wf_iff _).2 ⟨hmin, hmax, Memory.wf_write hpay _ _, Memory.within_write hin hi _, hrpar, hrowsyn, herr,
        hcorr⟩
    case isFalse => exact hw
  | param | ctrl | len | cmd | status | syncnt | loc | cpar | colsyn | pclen | noiseP | rowsyn | reserved => exact hw

/-- The reset state is well formed at every capacity that R8 permits. -/
theorem resetWith_wf {n : Nat} (h1 : 1 ≤ n) (h2 : n ≤ 256) : (State.resetWith n).wf = true :=
  (State.wf_iff _).2 ⟨h1, h2, rfl, rfl, Nat.two_pow_pos n, Nat.two_pow_pos n, Nat.zero_le 7, Nat.zero_le 8⟩

theorem resetEvent_wf {s : State} (hw : s.wf = true) : (resetEvent s).wf = true := by
  obtain ⟨hmin, hmax, _⟩ := s.wf_iff.1 hw
  exact resetWith_wf hmin hmax

theorem step_wf {s t : State} (hw : s.wf = true) (h : step s = .next t) : t.wf = true := by
  rcases step_next_cases h with ⟨_, rfl⟩ | ⟨rest, _, rfl⟩ | ⟨off, rest, _, rfl⟩ | ⟨off, v, rest, _, _, rfl⟩ |
    ⟨off, v, rest, i, _, _, _, hexec⟩ | ⟨off, v, rest, e, _, _, _, rfl⟩
  case inl => exact hw
  case inr.inl => exact resetEvent_wf (s := { s with events := rest }) hw
  case inr.inr.inl => exact hw
  case inr.inr.inr.inl => exact writeRegister_wf (s := { s with events := rest }) hw _ v
  case inr.inr.inr.inr.inl => exact exec_wf (s := { s with events := rest }) hw hexec
  case inr.inr.inr.inr.inr => exact raiseError_wf _ (s := { s with events := rest }) hw

/-! ## SYNVALID keeps its promise -/

/-- SYNVALID = 0 promises nothing (R40). -/
theorem SyndromeCurrent_of_synvalid_false {s : State} (h : s.synvalid = false) : s.SyndromeCurrent := fun hv =>
  absurd (h.symm.trans hv) Bool.false_ne_true

/-- CHECK computes the syndrome of the framed unit as it stands (R124). -/
theorem checkStage_syndromeCurrent {m : ParityMode} {s : State} (hw : s.wf = true) (hl : s.LenValid) (hm : s.ModeIs m)
    (hp : s.pclen.toNat = s.rows + 8) : (checkStage m s).SyndromeCurrent := fun _ =>
  ⟨hl, hp, m, hm, getLsbD_checkStage_rowsyn (State.rows_le_of_valid hw hl), fun _ hk => getLsbD_checkStage_colsyn m s hk⟩

/-- What the stages of a command leave in SYNVALID: CHECK sets it, NOP keeps it, the others clear it (R40). -/
theorem successState_synvalid (i : Instr) (m : ParityMode) (s : State) :
    (successState i m s).synvalid = if i = .nop then s.synvalid else decide (i = .check) := by
  cases i <;> rfl

theorem exec_syndromeCurrent {i : Instr} {s t : State} (hw : s.wf = true) (hs : s.SyndromeCurrent)
    (h : exec i s = .next t) : t.SyndromeCurrent := by
  rcases exec_next_cases h with ⟨e, rfl⟩ | ⟨m, hc, rfl⟩
  case inl => exact hs
  case inr =>
    cases i with
    | nop => exact hs
    | check =>
      obtain ⟨hl, hm, hp⟩ := hc
      exact checkStage_syndromeCurrent (s := s) hw hl hm hp
    | build | flip | noise | correct | run =>
      exact SyndromeCurrent_of_synvalid_false (successState_synvalid _ m s)

/-- A register write clears SYNVALID iff its register is of the framed unit (R40). -/
theorem writeRegister_synvalid (s : State) (r : Register) (v : Word) :
    (writeRegister s r v).synvalid = (s.synvalid && !r.clearsSynvalid s.maxRows) := by
  cases r with
  | payload i => by_cases hi : i < s.maxRows <;> simp [writeRegister, Register.clearsSynvalid, hi]
  | ctrl | len | cpar | pclen | rpar => exact (Bool.and_false _).symm
  | param | cmd | status | syncnt | loc | colsyn | noiseP | rowsyn | reserved => exact (Bool.and_true _).symm

/-- A write that keeps SYNVALID stores at most NOISE_P, which is no part of the framed unit (R34, R40). -/
theorem writeRegister_of_not_clearsSynvalid {s : State} {r : Register} (h : r.clearsSynvalid s.maxRows = false) (v : Word) :
    ∃ p, writeRegister s r v = { s with noiseP := p } := by
  cases r with
  | payload i => exact ⟨s.noiseP, if_neg (of_decide_eq_false h)⟩
  | noiseP => exact ⟨_, rfl⟩
  | ctrl | len | cpar | pclen | rpar => cases h
  | param | cmd | status | syncnt | loc | colsyn | rowsyn | reserved => exact ⟨s.noiseP, rfl⟩

theorem writeRegister_syndromeCurrent {s : State} (hs : s.SyndromeCurrent) (r : Register) (v : Word) :
    (writeRegister s r v).SyndromeCurrent := by
  cases hr : r.clearsSynvalid s.maxRows with
  | true => exact SyndromeCurrent_of_synvalid_false (by rw [writeRegister_synvalid, hr, Bool.not_true, Bool.and_false])
  | false =>
    obtain ⟨p, hp⟩ := writeRegister_of_not_clearsSynvalid hr v
    rw [hp]
    exact hs

theorem step_syndromeCurrent {s t : State} (hw : s.wf = true) (hs : s.SyndromeCurrent) (h : step s = .next t) :
    t.SyndromeCurrent := by
  rcases step_next_cases h with ⟨_, rfl⟩ | ⟨rest, _, rfl⟩ | ⟨off, rest, _, rfl⟩ | ⟨off, v, rest, _, _, rfl⟩ |
    ⟨off, v, rest, i, _, _, _, hexec⟩ | ⟨off, v, rest, e, _, _, _, rfl⟩
  case inl => exact hs
  case inr.inl => exact SyndromeCurrent_of_synvalid_false rfl
  case inr.inr.inl => exact hs
  case inr.inr.inr.inl => exact writeRegister_syndromeCurrent (s := { s with events := rest }) hs _ v
  case inr.inr.inr.inr.inl => exact exec_syndromeCurrent (s := { s with events := rest }) hw hs hexec
  case inr.inr.inr.inr.inr => exact hs

/-! ## The statements -/

/-- Settles O53, by the cases of a step; a command's own cases are its error and its stages. -/
theorem stepKeepsWellFormed : Obligations.StepKeepsWellFormed := fun _ _ hw h => ⟨step_wf hw h, step_maxRows h⟩

/-- Settles O54: only CHECK sets SYNVALID, and what changes the framed unit afterwards clears it. -/
theorem stepKeepsSyndromeCurrent : Obligations.StepKeepsSyndromeCurrent := fun _ _ hw hs h => step_syndromeCurrent hw hs h

/-- Settles O55: nothing is stored at reset, and SYNVALID is 0. -/
theorem resetMeetsTheInvariants : Obligations.ResetMeetsTheInvariants :=
  ⟨fun _ h1 h2 => ⟨resetWith_wf h1 h2, SyndromeCurrent_of_synvalid_false rfl⟩,
    resetWith_wf (by decide) (by decide), SyndromeCurrent_of_synvalid_false rfl⟩

end Sys2Proof.Machine

namespace Sys2Proof

/-! # The encoder against the decoder (30_encoding.md R100 to R105) -/

/-- Every command's word holds its OP and its ARG (R100, R104, R109). -/
theorem encode_opcodeField (i : Instr) : Laws.OpcodeField.Statement i := Laws.encode_fields i.argument i.opcode

theorem opField_encode (i : Instr) : opField (encode i) = i.opcode.toNat := by
  obtain ⟨hop, _⟩ := encode_opcodeField i
  rw [opField, hop]

theorem argField_encode (i : Instr) : argField (encode i) = i.argument.toNat := by
  obtain ⟨_, _, harg, _⟩ := encode_opcodeField i
  rw [argField, harg]

/-- The commands that read no ARG are decoded from OP alone (R103). -/
theorem decode_of_opField {v : Word} {i : Instr} (hv : opField v = i.opcode.toNat) (hi : ∀ f, i ≠ .flip f) :
    decode v = .ok i := by
  cases i with
  | flip f => exact absurd rfl (hi f)
  | nop | build | noise | check | correct | run => rw [decode, hv]; rfl

/-- A decoded command holds the word's OP, and its ARG if it is FLIP. -/
theorem fields_of_decode {v : Word} {i : Instr} (h : decode v = .ok i) :
    i.opcode = v.extractLsb' 0 4 ∧ i.argument = if v.extractLsb' 0 4 = 2#4 then v.extractLsb' 16 11 else 0#11 := by
  have hop {n : Nat} (hn : opField v = n) : v.extractLsb' 0 4 = BitVec.ofNat 4 n := by
    rw [← hn, opField, BitVec.ofNat_toNat, BitVec.setWidth_eq]
  rw [decode] at h
  split at h
  case h_3 h2 =>
    cases h
    rw [hop h2]
    exact ⟨rfl, (BitVec.ofNat_toNat ..).trans (BitVec.setWidth_eq _)⟩
  case h_8 => cases h
  all_goals
    next hn =>
    cases h
    rw [hop hn]
    exact ⟨rfl, rfl⟩

/-! ## A word as its four parts (R100) -/

theorem word_eq_parts (v : Word) :
    v = v.extractLsb' 27 5 ++ v.extractLsb' 16 11 ++ v.extractLsb' 4 12 ++ v.extractLsb' 0 4 := by
  rw [BitVec.extractLsb'_append_extractLsb'_eq_extractLsb' (by rfl),
    BitVec.extractLsb'_append_extractLsb'_eq_extractLsb' (by rfl),
    BitVec.extractLsb'_append_extractLsb'_eq_extractLsb' (by rfl), BitVec.extractLsb'_eq_self]

theorem and_four_parts {a b c d : Nat} (x x' : BitVec a) (y y' : BitVec b) (z z' : BitVec c) (u u' : BitVec d) :
    (x ++ y ++ z ++ u) &&& (x' ++ y' ++ z' ++ u') = (x &&& x') ++ (y &&& y') ++ (z &&& z') ++ (u &&& u') := by
  simp only [BitVec.and_append]

/-- Masking a word part by part: the ignored parts to 0, OP kept, ARG as `m` says. -/
theorem word_and_parts (v : Word) (m : BitVec 11) :
    v &&& (0#5 ++ m ++ 0#12 ++ BitVec.allOnes 4) = 0#5 ++ (v.extractLsb' 16 11 &&& m) ++ 0#12 ++ v.extractLsb' 0 4 := by
  conv_lhs => rw [word_eq_parts v]
  refine (and_four_parts _ _ _ _ _ _ _ _).trans ?_
  rw [BitVec.and_zero, BitVec.and_zero, BitVec.and_allOnes]

/-! ## The statements -/

/-- Settles O5: OP picks the command back, and FLIP's index survives its 11 bits. -/
theorem decodeOfEncodeIsTheCommand : Obligations.DecodeOfEncodeIsTheCommand := by
  intro i hw
  cases i with
  | flip f =>
    have hf : f < 2 ^ 11 := by
      have hle : f ≤ 2047 := of_decide_eq_true hw
      omega
    have harg : argField (encode (.flip f)) = f := by
      rw [argField_encode, Instr.argument, BitVec.toNat_ofNat, Nat.mod_eq_of_lt hf]
    rw [decode_flip (opField_encode (.flip f)), harg]
  | nop | build | noise | check | correct | run => exact decode_of_opField (opField_encode _) nofun

/-- Settles O6: the mask keeps OP, keeps ARG exactly for OP 2, and clears the ignored parts. -/
theorem encodeOfDecodeClearsIgnoredBits : Obligations.EncodeOfDecodeClearsIgnoredBits := by
  intro v i h
  obtain ⟨hop, harg⟩ := fields_of_decode h
  have hmask : (if v.extractLsb' 0 4 = 2#4 then 0x07FF000F#32 else 0x0000000F#32) =
      0#5 ++ (if v.extractLsb' 0 4 = 2#4 then BitVec.allOnes 11 else 0#11) ++ 0#12 ++ BitVec.allOnes 4 := by
    split <;> rfl
  rw [hmask, word_and_parts, encode, hop, harg]
  split
  · rw [BitVec.and_allOnes]
  · rw [BitVec.and_zero]

/-- Settles O7, by decoding each word. -/
theorem writtenOutWordsDecode : Obligations.WrittenOutWordsDecode := by
  unfold Obligations.WrittenOutWordsDecode
  decide

end Sys2Proof

namespace Sys2Proof.Machine

/-! # The register window (10_state.md R22 to R44, 20_memory.md R72 to R77) -/

/-! ## The register at an offset (R43, R74) -/

/-- Only bits [10:2] of an offset count (R74). -/
theorem registerAt_congr {off w : Word} (h : off &&& 0x7FC#32 = w &&& 0x7FC#32) : registerAt off = registerAt w := by
  simp only [registerAt, h]

theorem registerAt_and_mask (off : Word) : registerAt (off &&& 0x7FC#32) = registerAt off :=
  registerAt_congr (by rw [BitVec.and_assoc, BitVec.and_self])

/-- The word-aligned offset within the window, as a number. -/
theorem toNat_and_mask (w : Word) : (w &&& 0x7FC#32).toNat = 4 * (w.toNat / 4 % 512) := by
  have hmask : (0x7FC#32).toNat = 2 ^ 2 * (2 ^ 9 - 1) := rfl
  have hlow : w.toNat &&& 2 ^ 2 * (2 ^ 9 - 1) = 2 ^ 2 * (w.toNat / 2 ^ 2 &&& (2 ^ 9 - 1)) := by
    apply Nat.eq_of_testBit_eq
    intro i
    rw [Nat.testBit_and, Nat.testBit_two_pow_mul, Nat.testBit_two_pow_mul, Nat.testBit_and, Nat.testBit_div_two_pow]
    by_cases hi : 2 ≤ i
    · simp [hi]
    · simp [hi]
  rw [BitVec.toNat_and, hmask, hlow, Nat.and_two_pow_sub_one_eq_mod]
  rfl

/-- From 0x02C on the map has its three arrays of registers, and is reserved between them (R43, R44). -/
theorem registerAt_of_ge {w : Word} {n : Nat} (hn : (w &&& 0x7FC#32).toNat = n) (h : 0x02C ≤ n) :
    registerAt w =
      if 0x100 ≤ n ∧ n < 0x120 then .rpar ((n - 0x100) / 4)
      else if 0x200 ≤ n ∧ n < 0x220 then .rowsyn ((n - 0x200) / 4)
      else if 0x400 ≤ n then .payload ((n - 0x400) / 4)
      else .reserved := by
  rw [registerAt, hn]
  split
  case h_12 => rfl
  all_goals omega

theorem registerAt_rpar {j : Nat} (hj : j < 8) : registerAt (BitVec.ofNat 32 (0x100 + 4 * j)) = .rpar j := by
  have hn : (BitVec.ofNat 32 (0x100 + 4 * j) &&& 0x7FC#32).toNat = 0x100 + 4 * j := by
    rw [toNat_and_mask, BitVec.toNat_ofNat]; omega
  rw [registerAt_of_ge hn (by omega), if_pos (by omega)]
  congr 1; omega

theorem registerAt_rowsyn {j : Nat} (hj : j < 8) : registerAt (BitVec.ofNat 32 (0x200 + 4 * j)) = .rowsyn j := by
  have hn : (BitVec.ofNat 32 (0x200 + 4 * j) &&& 0x7FC#32).toNat = 0x200 + 4 * j := by
    rw [toNat_and_mask, BitVec.toNat_ofNat]; omega
  rw [registerAt_of_ge hn (by omega), if_neg (by omega), if_pos (by omega)]
  congr 1; omega

theorem registerAt_payload {i : Nat} (hi : i < 256) : registerAt (BitVec.ofNat 32 (0x400 + 4 * i)) = .payload i := by
  have hn : (BitVec.ofNat 32 (0x400 + 4 * i) &&& 0x7FC#32).toNat = 0x400 + 4 * i := by
    rw [toNat_and_mask, BitVec.toNat_ofNat]; omega
  rw [registerAt_of_ge hn (by omega), if_neg (by omega), if_neg (by omega), if_pos (by omega)]
  congr 1; omega

/-- The three gaps of the map, before, between and behind the row masks (R44). -/
theorem registerAt_reserved {w : Word}
    (h : 0x02C ≤ w.toNat ∧ w.toNat ≤ 0x0FF ∨ 0x120 ≤ w.toNat ∧ w.toNat ≤ 0x1FF ∨ 0x220 ≤ w.toNat ∧ w.toNat ≤ 0x3FF) :
    registerAt w = .reserved := by
  rw [registerAt_of_ge (toNat_and_mask w) (by omega), if_neg (by omega), if_neg (by omega), if_neg (by omega)]

/-! ## The fields of STATUS (R27) -/

theorem statusWord_fields (s : State) :
    s.statusWord.extractLsb' 0 4 = s.err ∧ s.statusWord.getLsbD 4 = s.synvalid ∧ s.statusWord.getLsbD 5 = s.single ∧
      s.statusWord.getLsbD 6 = s.locValid ∧ ∀ b, 7 ≤ b → s.statusWord.getLsbD b = false := by
  rw [State.statusWord]
  refine ⟨?err, ?synvalid, ?single, ?locValid, fun b hb => ?zeros⟩
  case err => rw [BitVec.extractLsb'_append_eq_of_add_le (by omega), BitVec.extractLsb'_eq_self]
  case synvalid =>
    rw [BitVec.getLsbD_append, if_neg (by omega), BitVec.getLsbD_append, if_pos (by omega)]
    exact BitVec.getLsbD_ofBool ..
  case single =>
    rw [BitVec.getLsbD_append, if_neg (by omega), BitVec.getLsbD_append, if_neg (by omega), BitVec.getLsbD_append,
      if_pos (by omega)]
    exact BitVec.getLsbD_ofBool ..
  case locValid =>
    rw [BitVec.getLsbD_append, if_neg (by omega), BitVec.getLsbD_append, if_neg (by omega), BitVec.getLsbD_append,
      if_neg (by omega), BitVec.getLsbD_append, if_pos (by omega)]
    exact BitVec.getLsbD_ofBool ..
  case zeros =>
    rw [BitVec.getLsbD_append, if_neg (by omega), BitVec.getLsbD_append, if_neg (by omega), BitVec.getLsbD_append,
      if_neg (by omega), BitVec.getLsbD_append, if_neg (by omega), BitVec.getLsbD_zero]

/-- SINGLE says that each list has one member (R39). -/
theorem single_iff_singletons (s : State) : s.single = true ↔ (∃ r, s.rowsList = [r]) ∧ ∃ k, s.colsList = [k] := by
  rw [single_iff, State.nRowErr, State.nColErr, List.length_eq_one_iff, List.length_eq_one_iff]

/-- LOCVALID says that each list has a member (R39). -/
theorem locValid_iff_mem (s : State) : s.locValid = true ↔ (∃ r, r ∈ s.rowsList) ∧ ∃ k, k ∈ s.colsList := by
  rw [locValid_iff, State.nRowErr, State.nColErr]
  exact and_congr List.length_pos_iff_exists_mem List.length_pos_iff_exists_mem

/-! ## Reads -/

/-- No register shows the inputs still to come. -/
theorem readRegister_events (s : State) (es : List Event) (r : Register) :
    readRegister { s with events := es } r = readRegister s r := by cases r <;> rfl

/-- A field that was cut from a word reads back as the word's bits in the field's mask. -/
theorem zeroExtend_extractLsb' (w : Nat) (v : Word) :
    (v.extractLsb' 0 w).zeroExtend 32 = v &&& fieldMask w := by
  refine bitVec_ext fun i hi => ?_
  rw [BitVec.getLsbD_and, getLsbD_fieldMask w hi]
  simp [hi, Bool.and_comm]

/-- In a well-formed state a row mask's word shows every row's bit: rows at and above the capacity hold 0 (R35, R36). -/
theorem getLsbD_rowWord_of_lt {maxRows : Nat} {rows : BitVec 256} (h : rows.toNat < 2 ^ maxRows) (j : Nat) {b : Nat}
    (hb : b < 32) : (rowWord maxRows rows j).getLsbD b = rows.getLsbD (32 * j + b) := by
  rw [getLsbD_rowWord maxRows rows j hb]
  by_cases hr : 32 * j + b < maxRows
  · rw [decide_eq_true hr, Bool.true_and]
  · rw [decide_eq_false hr, Bool.false_and, getLsbD_of_toNat_lt h (by omega)]

/-- In a well-formed state a PAYLOAD word shows its row: rows at and above the capacity read as unlisted (R37). -/
theorem readRegister_payload {s : State} (hw : s.wf = true) (i : Nat) :
    readRegister s (.payload i) = (s.payload.read i).zeroExtend 32 := by
  by_cases hi : i < s.maxRows
  · exact if_pos hi
  · have hzero : s.payload.read i = 0x00#8 := Memory.read_of_within (State.wf_within hw) (by omega)
    rw [hzero]
    exact if_neg hi

theorem readRegister_payload_of_ge {s : State} {i : Nat} (hi : s.maxRows ≤ i) : readRegister s (.payload i) = 0#32 :=
  if_neg (by omega)

/-- In a well-formed state every flagged row is in `rows_list` (R36, R39). -/
theorem mem_rowsList_of_wf {s : State} (hw : s.wf = true) (r : Nat) : r ∈ s.rowsList ↔ s.rowsyn.getLsbD r = true := by
  obtain ⟨_, _, _, _, _, hrowsyn, _, _⟩ := s.wf_iff.1 hw
  rw [mem_rowsList, and_iff_right_iff_imp]
  intro hr
  by_contra hge
  rw [getLsbD_of_toNat_lt hrowsyn (by omega)] at hr
  cases hr

/-! ## Writes to the PAYLOAD and RPAR windows -/

theorem writeRegister_payload_of_lt {s : State} {i : Nat} (hi : i < s.maxRows) (v : Word) :
    writeRegister s (.payload i) v = { s with payload := s.payload.write i (v.extractLsb' 0 8), synvalid := false } :=
  if_pos hi

theorem writeRegister_payload_of_ge {s : State} {i : Nat} (hi : s.maxRows ≤ i) (v : Word) :
    writeRegister s (.payload i) v = s := if_neg (by omega)

theorem writeRegister_payload_frame (s : State) (i : Nat) (v : Word) : writeRegister s (.payload i) v = { s with
    payload := (writeRegister s (.payload i) v).payload, synvalid := (writeRegister s (.payload i) v).synvalid } := by
  by_cases hi : i < s.maxRows
  · rw [writeRegister_payload_of_lt hi]
  · rw [writeRegister_payload_of_ge (by omega)]

/-! ## What each field holds after a write, in terms of the register written

The fields that no write touches have their lemmas in Laws/Registers.lean; SYNVALID has `writeRegister_synvalid`. -/

theorem writeRegister_mode (s : State) (r : Register) (v : Word) :
    (writeRegister s r v).mode = if r = .ctrl then v.extractLsb' 0 2 else s.mode := by
  cases r
  case payload i => exact (congrArg State.mode (writeRegister_payload_frame s i v)).trans rfl
  all_goals rfl

theorem writeRegister_len (s : State) (r : Register) (v : Word) :
    (writeRegister s r v).len = if r = .len then v.extractLsb' 0 12 else s.len := by
  cases r
  case payload i => exact (congrArg State.len (writeRegister_payload_frame s i v)).trans rfl
  all_goals rfl

theorem writeRegister_cpar (s : State) (r : Register) (v : Word) :
    (writeRegister s r v).cpar = if r = .cpar then v.extractLsb' 0 8 else s.cpar := by
  cases r
  case payload i => exact (congrArg State.cpar (writeRegister_payload_frame s i v)).trans rfl
  all_goals rfl

theorem writeRegister_pclen (s : State) (r : Register) (v : Word) :
    (writeRegister s r v).pclen = if r = .pclen then v.extractLsb' 0 9 else s.pclen := by
  cases r
  case payload i => exact (congrArg State.pclen (writeRegister_payload_frame s i v)).trans rfl
  all_goals rfl

theorem writeRegister_noiseP (s : State) (r : Register) (v : Word) :
    (writeRegister s r v).noiseP = if r = .noiseP then v.extractLsb' 0 16 else s.noiseP := by
  cases r
  case payload i => exact (congrArg State.noiseP (writeRegister_payload_frame s i v)).trans rfl
  all_goals rfl

/-- A write stores to the row it names, if that lies below the capacity, and to no other (R37). -/
theorem read_writeRegister {s : State} (hw : s.wf = true) (r : Register) (v : Word) (a : Nat) :
    (writeRegister s r v).payload.read a =
      if r = .payload a ∧ a < s.maxRows then v.extractLsb' 0 8 else s.payload.read a := by
  cases r with
  | payload i =>
    by_cases hi : i < s.maxRows
    · rw [writeRegister_payload_of_lt hi]
      by_cases ha : a = i
      · rw [ha, if_pos ⟨rfl, hi⟩, Memory.read_write_self (State.wf_payload hw)]
      · rw [if_neg fun h => ha (Register.payload.inj h.1).symm, Memory.read_write_of_ne _ _ ha]
    · rw [writeRegister_payload_of_ge (by omega), if_neg]
      rintro ⟨⟨⟩, ha⟩
      exact hi ha
  | param | ctrl | len | cmd | status | syncnt | loc | cpar | colsyn | pclen | noiseP | rpar | rowsyn | reserved =>
    exact (if_neg fun h => nomatch h.1).symm

/-- A write stores to the 32 rows of the RPAR word it names, below the capacity, and to no other (R35). -/
theorem getLsbD_writeRegister_rpar {s : State} (hw : s.wf = true) (q : Register) (v : Word) (r : Nat) :
    (writeRegister s q v).rpar.getLsbD r =
      if q = .rpar (r / 32) ∧ r < s.maxRows then v.getLsbD (r % 32) else s.rpar.getLsbD r := by
  obtain ⟨_, hmax, _, _, hrpar, _⟩ := s.wf_iff.1 hw
  cases q with
  | rpar j =>
    simp only [writeRegister, getLsbD_writeRowWord hmax, Register.rpar.injEq, eq_comm (a := j)]
    by_cases hr : r < s.maxRows
    · simp [hr]
    · simp [hr, getLsbD_of_toNat_lt hrpar (Nat.le_of_not_lt hr)]
  | payload i =>
    rw [if_neg fun h => nomatch h.1]
    exact (congrArg (fun t => t.rpar.getLsbD r) (writeRegister_payload_frame s i v)).trans rfl
  | param | ctrl | len | cmd | status | syncnt | loc | cpar | colsyn | pclen | noiseP | rowsyn | reserved =>
    exact (if_neg fun h => nomatch h.1).symm

/-! ## Two writes -/

theorem State.eq_iff_fields (s t : State) : s = t ↔
    s.maxRows = t.maxRows ∧ s.mode = t.mode ∧ s.len = t.len ∧ s.payload = t.payload ∧ s.rpar = t.rpar ∧ s.cpar = t.cpar ∧
      s.pclen = t.pclen ∧ s.noiseP = t.noiseP ∧ s.rowsyn = t.rowsyn ∧ s.colsyn = t.colsyn ∧ s.synvalid = t.synvalid ∧
      s.ncorr = t.ncorr ∧ s.err = t.err ∧ s.noise = t.noise ∧ s.events = t.events ∧ s.readData = t.readData := by
  cases s
  cases t
  exact Iff.of_eq (State.mk.injEq ..)

/-- Writes to two registers commute: no two of them share a field, a row or a row's bit. -/
theorem writeRegister_comm {s : State} (hw : s.wf = true) {q r : Register} (hqr : q ≠ r) (v w : Word) :
    writeRegister (writeRegister s q v) r w = writeRegister (writeRegister s r w) q v := by
  have hne {x : Register} (hr : r = x) (hq : q = x) : False := hqr (hq.trans hr.symm)
  have hwq : (writeRegister s q v).wf = true := writeRegister_wf hw q v
  have hwr : (writeRegister s r w).wf = true := writeRegister_wf hw r w
  rw [State.eq_iff_fields]
  refine ⟨by simp, ?mode, ?len, ?payload, ?rpar, ?cpar, ?pclen, ?noiseP, by simp, by simp, ?synvalid, by simp, by simp,
    by simp, by simp, by simp⟩
  case mode => simp only [writeRegister_mode]; exact ite_ite_comm _ _ _ _ hne
  case len => simp only [writeRegister_len]; exact ite_ite_comm _ _ _ _ hne
  case cpar => simp only [writeRegister_cpar]; exact ite_ite_comm _ _ _ _ hne
  case pclen => simp only [writeRegister_pclen]; exact ite_ite_comm _ _ _ _ hne
  case noiseP => simp only [writeRegister_noiseP]; exact ite_ite_comm _ _ _ _ hne
  case synvalid => simp only [writeRegister_synvalid, writeRegister_maxRows, Bool.and_right_comm]
  case payload =>
    refine Memory.ext (State.wf_payload (writeRegister_wf hwq r w)) (State.wf_payload (writeRegister_wf hwr q v)) fun a => ?_
    simp only [read_writeRegister hwq, read_writeRegister hwr, read_writeRegister hw, writeRegister_maxRows]
    exact ite_ite_comm _ _ _ _ fun hr hq => hne hr.1 hq.1
  case rpar =>
    refine bitVec_ext fun b _ => ?_
    simp only [getLsbD_writeRegister_rpar hwq, getLsbD_writeRegister_rpar hwr, getLsbD_writeRegister_rpar hw,
      writeRegister_maxRows]
    exact ite_ite_comm _ _ _ _ fun hr hq => hne hr.1 hq.1

/-- The same write again stores what is there (R77). -/
theorem writeRegister_writeRegister_self {s : State} (hw : s.wf = true) (r : Register) (v : Word) :
    writeRegister (writeRegister s r v) r v = writeRegister s r v := by
  have hwr : (writeRegister s r v).wf = true := writeRegister_wf hw r v
  rw [State.eq_iff_fields]
  refine ⟨by simp, ?mode, ?len, ?payload, ?rpar, ?cpar, ?pclen, ?noiseP, by simp, by simp, ?synvalid, by simp, by simp,
    by simp, by simp, by simp⟩
  case mode => simp only [writeRegister_mode, ← ite_or, or_self]
  case len => simp only [writeRegister_len, ← ite_or, or_self]
  case cpar => simp only [writeRegister_cpar, ← ite_or, or_self]
  case pclen => simp only [writeRegister_pclen, ← ite_or, or_self]
  case noiseP => simp only [writeRegister_noiseP, ← ite_or, or_self]
  case synvalid => simp only [writeRegister_synvalid, writeRegister_maxRows, Bool.and_assoc, Bool.and_self]
  case payload =>
    refine Memory.ext (State.wf_payload (writeRegister_wf hwr r v)) (State.wf_payload hwr) fun a => ?_
    simp only [read_writeRegister hwr, read_writeRegister hw, writeRegister_maxRows, ← ite_or, or_self]
  case rpar =>
    refine bitVec_ext fun b _ => ?_
    simp only [getLsbD_writeRegister_rpar hwr, getLsbD_writeRegister_rpar hw, writeRegister_maxRows, ← ite_or, or_self]

/-- A write does not see the inputs still to come. -/
theorem writeRegister_with_events (s : State) (es : List Event) (r : Register) (v : Word) :
    writeRegister { s with events := es } r v = { writeRegister s r v with events := es } := by
  cases r
  case payload => rw [writeRegister, writeRegister]; split <;> rfl
  all_goals rfl

/-- SYNVALID stays 0 over register writes, and one to the framed unit makes it 0 (R40). -/
theorem synvalid_foldl_writeRegister (s : State) (ws : List (Register × Word)) :
    (ws.foldl (fun t w => writeRegister t w.1 w.2) s).synvalid =
      (s.synvalid && !ws.any fun w => w.1.clearsSynvalid s.maxRows) := by
  induction ws generalizing s with
  | nil => exact (Bool.and_true _).symm
  | cons w ws ih =>
    rw [List.foldl_cons, ih, writeRegister_synvalid, writeRegister_maxRows, List.any_cons, Bool.not_or, Bool.and_assoc]

/-! ## The statements -/

/-- Settles O8: the offset acts through its word-aligned part; the named registers by evaluation, the arrays and the gaps by the
bounds of the map. -/
theorem registerMapIsAsSpecified : Obligations.RegisterMapIsAsSpecified := by
  intro off w h
  rw [registerAt_congr h]
  simp only [BitVec.le_def]
  refine ⟨?_, ?_, ?_, ?_, ?_, ?_, ?_, ?_, ?_, ?_, ?_, fun h1 h2 => registerAt_reserved (.inl ⟨h1, h2⟩), fun j hj hw => ?rpar,
    fun h1 h2 => registerAt_reserved (.inr (.inl ⟨h1, h2⟩)), fun j hj hw => ?rowsyn,
    fun h1 h2 => registerAt_reserved (.inr (.inr ⟨h1, h2⟩)), fun i hi hw => ?payload⟩
  case rpar => rw [hw, registerAt_rpar hj]
  case rowsyn => rw [hw, registerAt_rowsyn hj]
  case payload => rw [hw, registerAt_payload hi]
  all_goals
    rintro rfl
    rfl

/-- Settles O9: a read completes with the word of its register, and the input taken shows in no register. -/
theorem readReturnsTheWordAndChangesNothing : Obligations.ReadReturnsTheWordAndChangesNothing := by
  intro s off rest he
  rw [step_read he, hostRead, readRegister_events, registerAt_and_mask]

/-- Settles O10: the word's fields, and what the two flags say of the lists. -/
theorem statusHoldsItsFields : Obligations.StatusHoldsItsFields := by
  intro s
  obtain ⟨herr, hsynvalid, hsingle, hlocValid, hzeros⟩ := statusWord_fields s
  refine ⟨herr, hsynvalid, ?single, ?locValid, hzeros⟩
  case single => rw [readRegister, hsingle, single_iff_singletons]
  case locValid =>
    rw [readRegister, hlocValid, locValid_iff_mem]
    simp only [mem_rowsList, mem_colsList]

/-- Settles O14: each field by its mask, an RPAR word and a PAYLOAD row by what the write stored. -/
theorem writtenRegistersReadBack : Obligations.WrittenRegistersReadBack := by
  intro s v hw
  refine ⟨zeroExtend_extractLsb' 2 v, zeroExtend_extractLsb' 12 v,
    zeroExtend_extractLsb' 8 v, zeroExtend_extractLsb' 9 v, zeroExtend_extractLsb' 16 v,
    fun j b hb => ?rpar, fun i => ?payload⟩
  case rpar =>
    have hword : (32 * j + b) / 32 = j := by omega
    have hbit : (32 * j + b) % 32 = b := by omega
    rw [readRegister, getLsbD_rowWord _ _ j hb, getLsbD_writeRegister_rpar hw, writeRegister_maxRows, hword, hbit]
    by_cases hr : 32 * j + b < s.maxRows
    · rw [if_pos ⟨rfl, hr⟩]
    · rw [decide_eq_false hr, Bool.false_and, Bool.false_and]
  case payload =>
    rw [readRegister, writeRegister_maxRows, read_writeRegister hw]
    by_cases hi : i < s.maxRows
    · rw [if_pos hi, if_pos hi, if_pos ⟨rfl, hi⟩]
      exact zeroExtend_extractLsb' 8 v
    · rw [if_neg hi, if_neg hi]

/-- Settles O15: the step is the access of its register, and what the windows hold after a write says which rows it stores. -/
theorem registerWriteFrame : Obligations.RegisterWriteFrame := by
  intro s v hw
  refine ⟨fun off rest he hr => step_write_of_ne_cmd he hr, fun i hi => ?row, fun j r hj hr => ?bit, fun i a ha => ?otherRow,
    fun j r hj => ?otherBit, fun i => writeRegister_payload_frame s i v, fun _ => rfl, rfl, rfl, rfl, rfl, rfl⟩
  case row => rw [read_writeRegister hw, if_pos ⟨rfl, hi⟩]
  case bit => rw [getLsbD_writeRegister_rpar hw, if_pos ⟨congrArg _ hj.symm, hr⟩]
  case otherRow => rw [read_writeRegister hw, if_neg fun h => ha (Register.payload.inj h.1).symm]
  case otherBit => rw [getLsbD_writeRegister_rpar hw, if_neg fun h => hj (Register.rpar.inj h.1).symm]

/-- Settles O56: the fields zero-extended, and, since no row at or above the capacity holds anything, the windows without their
cut-off. -/
theorem readsReturnTheFields : Obligations.ReadsReturnTheFields := by
  intro s hw
  obtain ⟨_, _, _, _, hrpar, hrowsyn, _, _⟩ := s.wf_iff.1 hw
  refine ⟨rfl, rfl, rfl, rfl, rfl, rfl, rfl, fun j b hb => getLsbD_rowWord_of_lt hrpar j hb,
    fun j b hb => getLsbD_rowWord_of_lt hrowsyn j hb, readRegister_payload hw,
    fun r hr => ⟨getLsbD_of_toNat_lt hrpar hr, getLsbD_of_toNat_lt hrowsyn hr, readRegister_payload_of_ge hr⟩,
    fun f => ?pbit, fun k hk => ?column, fun r => ?row⟩
  case pbit =>
    rw [readRegister_payload hw, pbit, BitVec.zeroExtend_eq_setWidth, BitVec.getLsbD_setWidth, decide_eq_true (by omega),
      Bool.true_and]
  case column =>
    rw [mem_colsList, and_iff_right hk, readRegister, BitVec.zeroExtend_eq_setWidth, BitVec.getLsbD_setWidth,
      decide_eq_true (by omega), Bool.true_and]
  case row =>
    rw [mem_rowsList_of_wf hw, readRegister, getLsbD_rowWord_of_lt hrowsyn _ (Nat.mod_lt r (by omega)), Nat.div_add_mod]

/-- Settles O17: the first write's state has the second input next, and that write stores what is there. -/
theorem registerWritesAreIdempotent : Obligations.RegisterWritesAreIdempotent := by
  intro s off v rest t hw hr h
  rw [step_write_of_ne_cmd rfl hr] at h
  cases h
  have hevents : (writeRegister { s with events := .write off v :: rest } (registerAt off) v).events =
      .write off v :: rest := writeRegister_events _ _ _
  rw [step_write_of_ne_cmd hevents hr, writeRegister_with_events, writeRegister_writeRegister_self]
  exact hw

end Sys2Proof.Machine

namespace Sys2Proof.Machine

/-! # What each input does (10_state.md R39 to R42, 20_memory.md R73, 60_exceptions.md R216) -/

/-! ## A step by its input -/

theorem nextCmdWord_eq_some_iff (s : State) (v : Word) :
    s.nextCmdWord = some v ↔ ∃ off rest, s.events = .write off v :: rest ∧ registerAt off = .cmd := by
  unfold State.nextCmdWord
  constructor
  · intro h
    split at h
    case h_1 off w rest he =>
      split at h
      case isTrue hoff =>
        cases h
        exact ⟨off, rest, he, (registerAt_eq_cmd_iff off).2 hoff⟩
      case isFalse => cases h
    case h_2 => cases h
  · rintro ⟨off, rest, he, hr⟩
    rw [he]
    exact if_pos ((registerAt_eq_cmd_iff off).1 hr)

theorem step_reset {s : State} {rest : List Event} (he : s.events = .reset :: rest) :
    step s = .next (resetEvent { s with events := rest }) := by
  rw [step, nextAccess, he]

/-- A step answers one of: the block as it was; the reset state; a register write; what a decoded command answers; an illegal
command. -/
theorem step_next_inputs {s t : State} (h : step s = .next t) :
    (∃ es rd, t = { s with events := es, readData := rd }) ∨
    (s.nextResets ∧ ∃ es, t = resetEvent { s with events := es }) ∨
    (∃ r v es, s.nextWrites r ∧ t = { writeRegister s r v with events := es }) ∨
    (∃ i es, s.nextRuns i ∧ exec i { s with events := es } = .next t) ∨
    (∃ v es, s.nextCmdWord = some v ∧ t = raiseError .illegalCommand { s with events := es }) := by
  rcases step_next_cases h with ⟨_, rfl⟩ | ⟨rest, he, rfl⟩ | ⟨off, rest, he, rfl⟩ | ⟨off, v, rest, he, _, rfl⟩ |
    ⟨off, v, rest, i, he, hr, hd, hexec⟩ | ⟨off, v, rest, e, he, hr, _, rfl⟩
  case inl => exact .inl ⟨_, _, rfl⟩
  case inr.inl => exact .inr (.inl ⟨by rw [State.nextResets, he]; rfl, rest, rfl⟩)
  case inr.inr.inl => exact .inl ⟨_, _, rfl⟩
  case inr.inr.inr.inl =>
    exact .inr (.inr (.inl ⟨registerAt off, v, rest, ⟨off, v, rest, he, rfl⟩, writeRegister_with_events s rest _ v⟩))
  case inr.inr.inr.inr.inl =>
    exact .inr (.inr (.inr (.inl ⟨i, rest, ⟨v, (nextCmdWord_eq_some_iff s v).2 ⟨off, rest, he, hr⟩, hd⟩, hexec⟩)))
  case inr.inr.inr.inr.inr =>
    exact .inr (.inr (.inr (.inr ⟨v, rest, (nextCmdWord_eq_some_iff s v).2 ⟨off, rest, he, hr⟩, rfl⟩)))

/-- No stage reads or writes the inputs still to come. -/
theorem successState_with_events (i : Instr) (m : ParityMode) (s : State) (es : List Event) :
    successState i m { s with events := es } = { successState i m s with events := es } := by
  cases i <;> rfl

/-- What can change a part `f` of the block that holds neither ERR nor the host's port, when only writes to the registers `R` and
only the stages of the commands `C` touch it. -/
theorem step_changes {α : Type} {f : State → α} {R : Register → Prop} {C : Instr → Prop}
    (hf : ∀ s es rd c, f { s with events := es, readData := rd, err := c } = f s)
    (hR : ∀ s r v, ¬ R r → f (writeRegister s r v) = f s) (hC : ∀ s i m, ¬ C i → f (successState i m s) = f s)
    {s t : State} (h : step s = .next t) (hne : f t ≠ f s) :
    s.nextResets ∨ (∃ r, R r ∧ s.nextWrites r) ∨ ∃ i, C i ∧ s.nextRuns i := by
  have hport (u : State) (es : List Event) (c : BitVec 4) : f { u with events := es, err := c } = f u :=
    hf u es u.readData c
  rcases step_next_inputs h with ⟨es, rd, rfl⟩ | ⟨hr, _⟩ | ⟨r, v, es, hw, rfl⟩ | ⟨i, es, hi, hexec⟩ | ⟨v, es, _, rfl⟩
  case inl => exact absurd (hf s es rd s.err) hne
  case inr.inl => exact .inl hr
  case inr.inr.inl =>
    exact .inr (.inl ⟨r, not_not.1 fun hn => hne ((hport _ es _).trans (hR s r v hn)), hw⟩)
  case inr.inr.inr.inl =>
    rcases exec_next_cases hexec with ⟨e, rfl⟩ | ⟨m, _, rfl⟩
    · exact absurd (hport s es e.code) hne
    · rw [successState_with_events] at hne
      have hsucceed := hport (successState i m s) es 0#4
      exact .inr (.inr ⟨i, not_not.1 fun hn => hne (hsucceed.trans (hC s i m hn)), hi⟩)
  case inr.inr.inr.inr => exact absurd (hport s es _) hne

/-! ## What each register write and each command can change -/

theorem writeRegister_payload_of_ne {r : Register} (h : ¬ ∃ i, r = .payload i) (s : State) (v : Word) :
    (writeRegister s r v).payload = s.payload := by
  cases r
  case payload i => exact absurd ⟨i, rfl⟩ h
  all_goals rfl

theorem writeRegister_rpar_of_ne {r : Register} (h : ¬ ∃ j, r = .rpar j) (s : State) (v : Word) :
    (writeRegister s r v).rpar = s.rpar := by
  cases r
  case rpar j => exact absurd ⟨j, rfl⟩ h
  case payload i => exact (congrArg State.rpar (writeRegister_payload_frame s i v)).trans rfl
  all_goals rfl

/-- No command writes the registers that only the host sets (R23, R25, R34). -/
theorem successState_settings (i : Instr) (m : ParityMode) (s : State) :
    (successState i m s).mode = s.mode ∧ (successState i m s).len = s.len ∧ (successState i m s).noiseP = s.noiseP := by
  cases i <;> exact ⟨rfl, rfl, rfl⟩

/-- Only BUILD and RUN write the parity code (R30, R32, R35). -/
theorem successState_code {i : Instr} (h : ¬ (i = .build ∨ i = .run)) (m : ParityMode) (s : State) :
    (successState i m s).rpar = s.rpar ∧ (successState i m s).cpar = s.cpar ∧ (successState i m s).pclen = s.pclen := by
  cases i with
  | build => exact absurd (.inl rfl) h
  | run => exact absurd (.inr rfl) h
  | nop | flip | noise | check | correct => exact ⟨rfl, rfl, rfl⟩

/-- Only CHECK and RUN write the syndrome (R31, R36). -/
theorem successState_syndrome {i : Instr} (h : ¬ (i = .check ∨ i = .run)) (m : ParityMode) (s : State) :
    (successState i m s).rowsyn = s.rowsyn ∧ (successState i m s).colsyn = s.colsyn := by
  cases i with
  | check => exact absurd (.inl rfl) h
  | run => exact absurd (.inr rfl) h
  | nop | build | flip | noise | correct => exact ⟨rfl, rfl⟩

/-- Only CORRECT and RUN write NCORR (R41). -/
theorem successState_ncorr {i : Instr} (h : ¬ (i = .correct ∨ i = .run)) (m : ParityMode) (s : State) :
    (successState i m s).ncorr = s.ncorr := by
  cases i with
  | correct => exact absurd (.inl rfl) h
  | run => exact absurd (.inr rfl) h
  | nop | build | flip | noise | check => rfl

/-- Only FLIP, NOISE, CORRECT and RUN write the payload (R37). -/
theorem successState_payload {i : Instr} (h : ¬ ((∃ f, i = .flip f) ∨ i = .noise ∨ i = .correct ∨ i = .run))
    (m : ParityMode) (s : State) : (successState i m s).payload = s.payload := by
  cases i with
  | flip f => exact absurd (.inl ⟨f, rfl⟩) h
  | noise => exact absurd (.inr (.inl rfl)) h
  | correct => exact absurd (.inr (.inr (.inl rfl))) h
  | run => exact absurd (.inr (.inr (.inr rfl))) h
  | nop | build | check => rfl

/-- Only NOISE and RUN draw, LEN times (R153). -/
theorem successState_noise (i : Instr) (m : ParityMode) (s : State) :
    (successState i m s).noise = if i = .noise ∨ i = .run then s.noise.advance s.len.toNat else s.noise := by
  cases i with
  | noise | run => exact transmit_noise s.noiseP s.len.toNat 0 s.payload s.noise
  | nop | build | flip | check | correct => rfl

/-- The stages of a command whose checks pass store to rows below `n` alone. -/
theorem read_successState_of_rows_le {i : Instr} {m : ParityMode} {s : State} (hw : s.wf = true) (hs : s.SyndromeCurrent)
    (hc : checksPass i m s) {a : Nat} (ha : s.rows ≤ a) : (successState i m s).payload.read a = s.payload.read a := by
  have hp : s.payload.wf = true := State.wf_payload hw
  cases i with
  | nop | build | check => rfl
  | flip f =>
    obtain ⟨hl, hf⟩ := hc
    obtain ⟨hlen, _, _⟩ := State.rows_of_valid hl
    exact read_flipBit_of_ne _ (by omega)
  | noise => exact read_transmitStage_of_rows_le hp hc ha
  | correct =>
    refine read_correctStage_of_not_mem s fun hmem => ?_
    obtain ⟨rc, hrc, rfl⟩ := List.mem_map.1 hmem
    have hlt : rc.1 < s.rows := hs.row_lt hc (mem_pairs hrc).1
    omega
  | run =>
    obtain ⟨hl, _⟩ := hc
    have hrows : (transmitStage (buildStage m s)).rows ≤ 256 := State.rows_le_of_valid (s := s) hw hl
    calc (correctStage (checkStage m (transmitStage (buildStage m s)))).payload.read a
      _ = (transmitStage (buildStage m s)).payload.read a := read_correctStage_checkStage_of_rows_le hrows ha
      _ = s.payload.read a := read_transmitStage_of_rows_le (s := buildStage m s) hp hl ha

/-- The decoder answers only commands that have an encoding (R102). -/
theorem wellFormed_of_decode {v : Word} {i : Instr} (h : decode v = .ok i) : i.wellFormed = true := by
  cases i with
  | flip f =>
    have hf : f = argField v := by
      rw [decode] at h
      split at h <;> cases h
      rfl
    have hlt : argField v < 2 ^ 11 := BitVec.isLt _
    exact decide_eq_true (by omega)
  | nop | build | noise | check | correct | run => rfl

/-! ## The statements -/

/-- Settles O52: every access is done or runs a command, and every command ends in its error or its stages' state. -/
theorem everyStepCompletes : Obligations.EveryStepCompletes := by
  refine ⟨fun s => ?completes, fun s he => by rw [step, nextAccess, he]⟩
  case completes =>
    rw [step]
    cases nextAccess s with
    | done t => exact ⟨t, rfl⟩
    | command i t =>
      obtain ⟨u, hu, _⟩ := exec_err i t
      exact ⟨u, hu⟩

/-- Settles O27: an error draws nothing, and the stages draw as `successState_noise` says. -/
theorem onlyNoiseAndRunDraw : Obligations.OnlyNoiseAndRunDraw := by
  intro i s t h
  rcases exec_next_cases h with ⟨e, rfl⟩ | ⟨m, _, rfl⟩
  case inl => rw [if_neg fun hc => e.code_ne_zero hc.2, raiseError_noise]
  case inr => simp only [succeed_noise, succeed_err, and_true, successState_noise]

/-- Settles O29: an error writes no payload, and the stages store below `n`. -/
theorem commandsLeaveBytesBeyondLen : Obligations.CommandsLeaveBytesBeyondLen := by
  intro i s t hw hs h a ha
  rcases exec_next_cases h with ⟨e, rfl⟩ | ⟨m, hc, rfl⟩
  case inl => rfl
  case inr => exact read_successState_of_rows_le hw hs hc ha

/-- Settles O31, an input at a time. -/
theorem synvalidFollowsItsEvents : Obligations.SynvalidFollowsItsEvents := by
  refine ⟨fun i s t h => ?command, fun s t off v rest he hr h => ?write, fun s t off rest he h => ?read,
    fun s t hr h => ?reset, fun s t v e hv hd h => ?reserved, fun s hs => execCorrect_noSyndrome hs⟩
  case command =>
    rcases exec_next_cases h with ⟨e, rfl⟩ | ⟨m, _, rfl⟩
    · rw [if_pos (.inl e.code_ne_zero), raiseError_synvalid]
    · simp only [succeed_synvalid, succeed_err, successState_synvalid, ne_eq, not_true, false_or]
  case write =>
    rw [step_write_of_ne_cmd he hr] at h
    cases h
    exact writeRegister_synvalid _ _ v
  case read =>
    rw [step_read he] at h
    cases h
    rfl
  case reset =>
    obtain ⟨rest, he⟩ := List.head?_eq_some_iff.1 hr
    rw [step_reset he] at h
    cases h
    rfl
  case reserved =>
    obtain ⟨off, rest, he, hr⟩ := (nextCmdWord_eq_some_iff s v).1 hv
    rw [step_write_reserved he hr hd] at h
    cases h
    rfl

/-- Settles O32: ERR by the inputs of a step, the others by what can change them. -/
theorem resultRegistersHaveTheirWriters : Obligations.ResultRegistersHaveTheirWriters := by
  intro s t h
  refine ⟨fun hne => ?err, fun hne => ?ncorr, fun hne => ?rowsyn, fun hne => ?colsyn⟩
  case err =>
    rcases step_next_inputs h with ⟨es, rd, rfl⟩ | ⟨hr, _⟩ | ⟨r, v, es, _, rfl⟩ | ⟨i, es, ⟨v, hv, _⟩, _⟩ | ⟨v, es, hv, _⟩
    · exact absurd rfl hne
    · exact .inl hr
    · exact absurd (writeRegister_err s r v) hne
    · exact .inr ⟨v, hv⟩
    · exact .inr ⟨v, hv⟩
  case ncorr =>
    have hchange := step_changes (f := State.ncorr) (R := fun _ => False) (C := fun i => i = .correct ∨ i = .run)
      (fun _ _ _ _ => rfl) (fun s r v _ => writeRegister_ncorr s r v) (fun s _ m hi => successState_ncorr hi m s) h hne
    simpa [or_and_right, exists_or] using hchange
  case rowsyn =>
    have hchange := step_changes (f := State.rowsyn) (R := fun _ => False) (C := fun i => i = .check ∨ i = .run)
      (fun _ _ _ _ => rfl) (fun s r v _ => writeRegister_rowsyn s r v) (fun s _ m hi => (successState_syndrome hi m s).1) h hne
    simpa [or_and_right, exists_or] using hchange
  case colsyn =>
    have hchange := step_changes (f := State.colsyn) (R := fun _ => False) (C := fun i => i = .check ∨ i = .run)
      (fun _ _ _ _ => rfl) (fun s r v _ => writeRegister_colsyn s r v) (fun s _ m hi => (successState_syndrome hi m s).2) h hne
    simpa [or_and_right, exists_or] using hchange

/-- Settles O33: each field by the registers whose write stores to it and the commands whose stages do. -/
theorem framedUnitHasItsWriters : Obligations.FramedUnitHasItsWriters := by
  intro s t h
  refine ⟨fun hne => ?mode, fun hne => ?len, fun hne => ?noiseP, fun hne => ?cpar, fun hne => ?pclen, fun hne => ?rpar,
    fun hne => ?payload⟩
  case mode =>
    have hchange := step_changes (f := State.mode) (R := (· = .ctrl)) (C := fun _ => False) (fun _ _ _ _ => rfl)
      (fun s r v hr => (writeRegister_mode s r v).trans (if_neg hr)) (fun s i m _ => (successState_settings i m s).1) h hne
    simpa using hchange
  case len =>
    have hchange := step_changes (f := State.len) (R := (· = .len)) (C := fun _ => False) (fun _ _ _ _ => rfl)
      (fun s r v hr => (writeRegister_len s r v).trans (if_neg hr)) (fun s i m _ => (successState_settings i m s).2.1) h hne
    simpa using hchange
  case noiseP =>
    have hchange := step_changes (f := State.noiseP) (R := (· = .noiseP)) (C := fun _ => False) (fun _ _ _ _ => rfl)
      (fun s r v hr => (writeRegister_noiseP s r v).trans (if_neg hr)) (fun s i m _ => (successState_settings i m s).2.2) h hne
    simpa using hchange
  case cpar =>
    have hchange := step_changes (f := State.cpar) (R := (· = .cpar)) (C := fun i => i = .build ∨ i = .run)
      (fun _ _ _ _ => rfl) (fun s r v hr => (writeRegister_cpar s r v).trans (if_neg hr))
      (fun s _ m hi => (successState_code hi m s).2.1) h hne
    simpa [or_and_right, exists_or] using hchange
  case pclen =>
    have hchange := step_changes (f := State.pclen) (R := (· = .pclen)) (C := fun i => i = .build ∨ i = .run)
      (fun _ _ _ _ => rfl) (fun s r v hr => (writeRegister_pclen s r v).trans (if_neg hr))
      (fun s _ m hi => (successState_code hi m s).2.2) h hne
    simpa [or_and_right, exists_or] using hchange
  case rpar =>
    have hchange := step_changes (f := State.rpar) (R := fun r => ∃ j, r = .rpar j) (C := fun i => i = .build ∨ i = .run)
      (fun _ _ _ _ => rfl) (fun s _ v hr => writeRegister_rpar_of_ne hr s v)
      (fun s _ m hi => (successState_code hi m s).1) h hne
    simpa [or_and_right, exists_or] using hchange
  case payload =>
    have hchange := step_changes (f := State.payload) (R := fun r => ∃ i, r = .payload i)
      (C := fun i => (∃ f, i = .flip f) ∨ i = .noise ∨ i = .correct ∨ i = .run)
      (fun _ _ _ _ => rfl) (fun s _ v hr => writeRegister_payload_of_ne hr s v)
      (fun s _ m hi => successState_payload hi m s) h hne
    simpa [or_and_right, exists_or] using hchange

/-- Settles O57: the registers share no field, and SYNVALID falls with any write to the framed unit and rises with none. -/
theorem senderWritesComeInAnyOrder : Obligations.SenderWritesComeInAnyOrder := by
  refine ⟨fun s q r v w hw hqr => writeRegister_comm hw hqr v w, fun s ws hex => ?unit, fun _ => rfl,
    fun s t hs hcmd h => ?step⟩
  case unit => rw [synvalid_foldl_writeRegister, List.any_eq_true.2 hex, Bool.not_true, Bool.and_false]
  case step =>
    rcases step_next_inputs h with ⟨es, rd, rfl⟩ | ⟨_, es, rfl⟩ | ⟨r, v, es, _, rfl⟩ | ⟨i, es, ⟨v, hv, _⟩, _⟩ | ⟨v, es, hv, _⟩
    · exact hs
    · rfl
    · exact (writeRegister_synvalid s r v).trans (by rw [hs, Bool.false_and])
    · exact absurd (hcmd.symm.trans hv) nofun
    · exact absurd (hcmd.symm.trans hv) nofun


/-- Settles O50. -/
theorem resetEventRestoresEveryField : Obligations.ResetEventRestoresEveryField := fun _ _ he => step_reset he

/-- Settles O46: CORRECT ends with SYNVALID 0, whether it was refused or not. -/
theorem secondCorrectIsRefused : Obligations.SecondCorrectIsRefused := by
  intro s
  cases hs : s.synvalid with
  | true => exact ⟨_, execCorrect_ok hs, execCorrect_noSyndrome (correctStage_synvalid s)⟩
  | false => exact ⟨_, execCorrect_noSyndrome hs, execCorrect_noSyndrome hs⟩

/-- Settles O51: LEN is 0 at reset, which is a multiple of 8 but no length, and SYNVALID is 0. -/
theorem commandsAfterReset : Obligations.CommandsAfterReset := by
  intro n f
  have hlen : checkLen (State.resetWith n) = .error .length := checkLen_of_length ⟨rfl, .inl rfl⟩
  exact ⟨execBuild_error hlen, execFlip_error hlen, execNoise_error hlen, execCheck_error hlen, execRun_error hlen,
    execCorrect_noSyndrome rfl, rfl⟩

/-- Settles O1. -/
theorem stepRunsDecodedCommand : Obligations.StepRunsDecodedCommand := fun _ off _ _ _ he hoff hd =>
  ⟨wellFormed_of_decode hd, step_write_command he ((registerAt_eq_cmd_iff off).2 hoff) hd⟩

/-- Settles O2: the placed write is the next input, and taking it gives the state back. -/
theorem placedCommandRunsNext : Obligations.PlacedCommandRunsNext := by
  intro s nbits w i h
  have hd : decode (BitVec.ofNat 32 (w % 2 ^ nbits)) = .ok i := by
    unfold decodeTableWord at h
    split at h
    case h_1 hok => rw [hok, Option.some.inj h]
    case h_2 => cases h
  exact step_write_command (s := s.withFetchWord nbits w) rfl ((registerAt_eq_cmd_iff _).2 rfl) hd

end Sys2Proof.Machine

namespace Sys2Proof.Machine

/-! # What the code detects (40_codec.md section 4) -/

/-! ## CHECK over a received unit -/

/-- `r` carries the parity code that BUILD in mode `m` stores for `s`, in the length of `s`; its payload and its mode are
free. -/
structure State.CarriesCodeOf (r s : State) (m : ParityMode) : Prop where
  maxRows : r.maxRows = s.maxRows
  len : r.len = s.len
  rpar : r.rpar = rowParities m s.payload s.rows
  cpar : r.cpar = colParities m s.payload s.rows
  pclen : r.pclen = BitVec.ofNat 9 (s.rows + 8)

/-- The flagged rows are the rows below `n` whose parity is not the stored one; `d` says which (R124). -/
theorem rowsList_checkStage_eq {m : ParityMode} {r : State} (hmax : r.maxRows ≤ 256) (hl : r.LenValid) {d : Nat → Bool}
    (hd : ∀ i, i < r.rows → (rowParity m r.payload i ^^ r.rpar.getLsbD i) = d i) {l : List Nat}
    (hsorted : l.Pairwise (· < ·)) (hmem : ∀ i, i ∈ l ↔ i < r.rows ∧ d i = true) : (checkStage m r).rowsList = l := by
  obtain ⟨_, _, hrows⟩ := State.rows_of_valid hl
  refine rowsList_eq hsorted fun i => ?_
  rw [hmem, getLsbD_checkStage_rowsyn (hrows.trans hmax), Bool.and_eq_true, decide_eq_true_iff, checkStage_maxRows]
  constructor
  · rintro ⟨hi, hflag⟩
    exact ⟨hi.trans_le hrows, hi, (hd i hi).trans hflag⟩
  · rintro ⟨_, hi, hflag⟩
    exact ⟨hi, (hd i hi).symm.trans hflag⟩

/-- The flagged columns are those whose parity is not the stored one; `d` says which (R124). -/
theorem colsList_checkStage_eq {m : ParityMode} {r : State} {d : Nat → Bool}
    (hd : ∀ k, k < 8 → (colParity m r.payload r.rows k ^^ r.cpar.getLsbD (7 - k)) = d k) {l : List Nat}
    (hsorted : l.Pairwise (· < ·)) (hmem : ∀ k, k ∈ l ↔ k < 8 ∧ d k = true) : (checkStage m r).colsList = l :=
  colsList_eq hsorted fun k => by
    rw [hmem]
    exact and_congr_right fun hk => by rw [getLsbD_checkStage_colsyn m r hk, hd k hk]

/-- The list of the one flag that is set. -/
theorem mem_singleton_iff_lt_and_eq {a n : Nat} (ha : a < n) (i : Nat) : i ∈ [a] ↔ i < n ∧ decide (i = a) = true := by
  rw [List.mem_singleton, decide_eq_true_iff]
  exact ⟨fun hi => ⟨hi ▸ ha, hi⟩, And.right⟩

/-- The list of no flag. -/
theorem mem_nil_iff_lt_and_false (n i : Nat) : i ∈ ([] : List Nat) ↔ i < n ∧ false = true := by simp

namespace State.CarriesCodeOf

variable {r s : State} {m m' : ParityMode}

theorem rows_eq (h : r.CarriesCodeOf s m) : r.rows = s.rows := by rw [State.rows, State.rows, h.len]

theorem lenValid (h : r.CarriesCodeOf s m) (hl : s.LenValid) : r.LenValid := by
  rw [State.LenValid, h.len, h.maxRows]
  exact hl

theorem maxRows_le (h : r.CarriesCodeOf s m) (hw : s.wf = true) : r.maxRows ≤ 256 := by
  rw [h.maxRows]
  exact State.wf_maxRows hw

/-- CHECK accepts the unit in either mode: PCLEN is the length of the code it carries (R126). -/
theorem exec_check (h : r.CarriesCodeOf s m) (hw : s.wf = true) (hl : s.LenValid) (hm : r.ModeIs m') :
    exec .check r = .next (succeed (checkStage m' r)) := by
  refine execCheck_ok (h.lenValid hl) hm ?_
  rw [h.pclen, h.rows_eq, State.pclen_of_rows hw hl]

/-- The stored parity of a row. -/
theorem getLsbD_rpar (h : r.CarriesCodeOf s m) (hw : s.wf = true) (hl : s.LenValid) {i : Nat} (hi : i < s.rows) :
    r.rpar.getLsbD i = rowParity m s.payload i := by
  rw [h.rpar, getLsbD_rowParities m _ (State.rows_le_of_valid hw hl), decide_eq_true hi, Bool.true_and]

/-- The stored parity of a column. -/
theorem getLsbD_cpar (h : r.CarriesCodeOf s m) {k : Nat} (hk : k < 8) :
    r.cpar.getLsbD (7 - k) = colParity m s.payload s.rows k := by
  rw [h.cpar, getLsbD_colParities m _ _ hk]

/-- A row's flag is the difference between its parity now and its parity when the code was built. -/
theorem getLsbD_rowsyn (h : r.CarriesCodeOf s m) (hw : s.wf = true) (hl : s.LenValid) (i : Nat) :
    (checkStage m' r).rowsyn.getLsbD i =
      (decide (i < s.rows) && (rowParity m' r.payload i ^^ rowParity m s.payload i)) := by
  rw [getLsbD_checkStage_rowsyn (h.rows_eq.trans_le (State.rows_le_of_valid hw hl)), h.rows_eq]
  by_cases hi : i < s.rows
  · rw [h.getLsbD_rpar hw hl hi]
  · rw [decide_eq_false hi, Bool.false_and, Bool.false_and]

/-- A column's flag is the difference between its parity now and its parity when the code was built. -/
theorem getLsbD_colsyn (h : r.CarriesCodeOf s m) {k : Nat} (hk : k < 8) :
    (checkStage m' r).colsyn.getLsbD (7 - k) =
      (colParity m' r.payload s.rows k ^^ colParity m s.payload s.rows k) := by
  rw [getLsbD_checkStage_colsyn m' r hk, h.rows_eq, h.getLsbD_cpar hk]

/-- In the mode of the code, a row is flagged iff an odd number of its bits changed (R128). -/
theorem getLsbD_rowsyn_eq_ones (h : r.CarriesCodeOf s m) (hw : s.wf = true) (hl : s.LenValid) (i : Nat) :
    (checkStage m r).rowsyn.getLsbD i =
      (decide (i < s.rows) && decide (ones (r.payload.read i ^^^ s.payload.read i) % 2 = 1)) := by
  rw [h.getLsbD_rowsyn hw hl, rowParity_xor, decide_eq_false fun hne : m ≠ m => hne rfl, Bool.xor_false]

/-- In the mode of the code, a column is flagged iff an odd number of its bits changed (R128). -/
theorem getLsbD_colsyn_eq_countP (h : r.CarriesCodeOf s m) {k : Nat} (hk : k < 8) :
    (checkStage m r).colsyn.getLsbD (7 - k) =
      decide ((List.range s.rows).countP (fun i => pbit r.payload (8 * i + k) != pbit s.payload (8 * i + k)) % 2 = 1) := by
  rw [h.getLsbD_colsyn hk, colParity_xor, decide_eq_false fun hne : m ≠ m => hne rfl, Bool.xor_false]

/-- An unchanged payload has no flag (R129). -/
theorem syndrome_of_unchanged (h : r.CarriesCodeOf s m) (hw : s.wf = true) (hl : s.LenValid)
    (hp : r.payload = s.payload) : (checkStage m r).rowsyn = 0#256 ∧ (checkStage m r).colsyn = 0#8 := by
  refine ⟨bitVec_ext fun i _ => ?row, colMask_ext fun k hk => ?col⟩
  case row => rw [h.getLsbD_rowsyn hw hl, hp, Bool.xor_self, Bool.and_false, BitVec.getLsbD_zero]
  case col => rw [h.getLsbD_colsyn hk, hp, Bool.xor_self, BitVec.getLsbD_zero]

/-- In the mode of the code, the flagged rows are those whose parity a change of the payload inverts; `d` says which. -/
theorem rowsList_eq_of_change (h : r.CarriesCodeOf s m) (hw : s.wf = true) (hl : s.LenValid) {d : Nat → Bool}
    (hd : ∀ i, rowParity m r.payload i = (rowParity m s.payload i ^^ d i)) {l : List Nat} (hsorted : l.Pairwise (· < ·))
    (hmem : ∀ i, i ∈ l ↔ i < s.rows ∧ d i = true) : (checkStage m r).rowsList = l := by
  refine rowsList_checkStage_eq (h.maxRows_le hw) (h.lenValid hl) (fun i hi => ?_) hsorted (h.rows_eq ▸ hmem)
  rw [hd, h.getLsbD_rpar hw hl (hi.trans_eq h.rows_eq), Bool.xor_right_comm, Bool.xor_self, Bool.false_xor]

/-- In the mode of the code, the flagged columns are those whose parity a change of the payload inverts; `d` says which. -/
theorem colsList_eq_of_change (h : r.CarriesCodeOf s m) {d : Nat → Bool}
    (hd : ∀ k, k < 8 → colParity m r.payload s.rows k = (colParity m s.payload s.rows k ^^ d k)) {l : List Nat}
    (hsorted : l.Pairwise (· < ·)) (hmem : ∀ k, k ∈ l ↔ k < 8 ∧ d k = true) : (checkStage m r).colsList = l := by
  refine colsList_checkStage_eq (fun k hk => ?_) hsorted hmem
  rw [h.rows_eq, hd k hk, h.getLsbD_cpar hk, Bool.xor_right_comm, Bool.xor_self, Bool.false_xor]

/-- One inverted bit below LEN flags its row and its column alone (R130). -/
theorem lists_of_flip (h : r.CarriesCodeOf s m) (hw : s.wf = true) (hl : s.LenValid) {f : Nat} (hf : f < s.len.toNat)
    (hp : r.payload = flipBit s.payload f) :
    (checkStage m r).rowsList = [f / 8] ∧ (checkStage m r).colsList = [f % 8] := by
  have hwp : s.payload.wf = true := State.wf_payload hw
  obtain ⟨hlen, _, _⟩ := State.rows_of_valid hl
  have hrow : f / 8 < s.rows := by omega
  constructor
  · exact h.rowsList_eq_of_change hw hl (fun i => by rw [hp, rowParity_flipBit m hwp]) (List.pairwise_singleton ..)
      (mem_singleton_iff_lt_and_eq hrow)
  · exact h.colsList_eq_of_change (fun k hk => by rw [hp, colParity_flipBit m hwp hrow hk]) (List.pairwise_singleton ..)
      (mem_singleton_iff_lt_and_eq (Nat.mod_lt f (by omega)))

end State.CarriesCodeOf

/-! ## CORRECT over short lists of flags (R170) -/

/-- With no flagged row or no flagged column there is nothing to correct. -/
theorem correctStage_of_no_pair {c : State} (h : c.rowsList = [] ∨ c.colsList = []) :
    (correctStage c).payload = c.payload ∧ (correctStage c).ncorr = 0#4 := by
  have hpairs : c.pairs = [] := by
    rcases h with h | h
    · rw [State.pairs, h, List.zip_nil_left]
    · rw [State.pairs, h, List.zip_nil_right]
  rw [correctStage_payload, correctStage_ncorr, ← pairs_length, hpairs]
  exact ⟨rfl, rfl⟩

/-- One flagged row and one flagged column make the one pair. -/
theorem correctStage_of_single {c : State} {r k : Nat} (hr : c.rowsList = [r]) (hk : c.colsList = [k]) :
    (correctStage c).payload = flipBit c.payload (8 * r + k) ∧ (correctStage c).ncorr = 1#4 := by
  have hpairs : c.pairs = [(r, k)] := by rw [State.pairs, hr, hk]; rfl
  rw [correctStage_payload, correctStage_ncorr, ← pairs_length, hpairs]
  exact ⟨rfl, rfl⟩

/-- CORRECT takes back the one inverted bit that CHECK located. -/
theorem correctStage_restores {r s : State} {m : ParityMode} (h : r.CarriesCodeOf s m) (hw : s.wf = true) (hl : s.LenValid)
    {f : Nat} (hf : f < s.len.toNat) (hp : r.payload = flipBit s.payload f) :
    (correctStage (checkStage m r)).payload = s.payload ∧ (correctStage (checkStage m r)).ncorr = 1#4 := by
  obtain ⟨hrow, hcol⟩ := h.lists_of_flip hw hl hf hp
  obtain ⟨hpayload, hncorr⟩ := correctStage_of_single hrow hcol
  refine ⟨?_, hncorr⟩
  rw [hpayload, Nat.div_add_mod, checkStage_payload, hp, flipBit_flipBit (State.wf_payload hw)]

/-! ## The statements about BUILD and CHECK -/

/-- Settles O34: both stages' masks by their closed forms. -/
theorem closedFormsOfTheParityCode : Obligations.ClosedFormsOfTheParityCode := by
  intro s m hw hl hm
  have hrows : s.rows ≤ 256 := State.rows_le_of_valid hw hl
  refine ⟨fun t h => ?build, fun hp t h => ?check⟩
  case build =>
    cases (execBuild_ok hl hm).symm.trans h
    refine ⟨colParities_eq_xorRows m s.payload s.rows, fun i hi => ?_⟩
    rw [succeed_rpar, buildStage_rpar, getLsbD_rowParities m _ hrows, decide_eq_true hi, Bool.true_and, rowParity_eq_ones]
  case check =>
    cases (execCheck_ok hl hm hp).symm.trans h
    constructor
    · rw [succeed_colsyn, checkStage_colsyn, colParities_eq_xorRows, BitVec.xor_assoc, BitVec.xor_assoc,
        BitVec.xor_comm s.cpar]
    · intro i hi
      rw [succeed_rowsyn, getLsbD_checkStage_rowsyn hrows, decide_eq_true hi, Bool.true_and, rowParity_eq_ones,
        Bool.xor_right_comm]

/-- Settles O35: the flags are the parities of the change, whatever the mode. -/
theorem syndromeIsTheParityOfTheChange : Obligations.SyndromeIsTheParityOfTheChange := by
  intro s m p hw hl hm
  have hcode : State.CarriesCodeOf { succeed (buildStage m s) with payload := p } s m := ⟨rfl, rfl, rfl, rfl, rfl⟩
  exact ⟨_, _, execBuild_ok hl hm, hcode.exec_check hw hl hm, rfl, rfl, hcode.getLsbD_rowsyn_eq_ones hw hl,
    fun _ hk => hcode.getLsbD_colsyn_eq_countP hk⟩

/-- Settles O36. -/
theorem unchangedPayloadFlagsNothing : Obligations.UnchangedPayloadFlagsNothing := by
  intro s m hw hl hm
  have hcode : (succeed (buildStage m s)).CarriesCodeOf s m := ⟨rfl, rfl, rfl, rfl, rfl⟩
  obtain ⟨hrow, hcol⟩ := hcode.syndrome_of_unchanged hw hl rfl
  exact ⟨_, _, execBuild_ok hl hm, hcode.exec_check hw hl hm, rowsList_of_rowsyn_zero hrow, colsList_of_colsyn_zero hcol,
    hrow, hcol, rfl, rfl⟩

/-- Settles O37: the lists have one member each, which LOC shows. -/
theorem singleFlipIsLocated : Obligations.SingleFlipIsLocated := by
  intro s m f hw hl hm hf
  have hcode : (succeed (flipStage f (succeed (buildStage m s)))).CarriesCodeOf s m := ⟨rfl, rfl, rfl, rfl, rfl⟩
  refine ⟨_, _, _, execBuild_ok hl hm, execFlip_ok (s := succeed (buildStage m s)) hl hf, hcode.exec_check hw hl hm, ?_⟩
  obtain ⟨hrow, hcol⟩ := hcode.lists_of_flip hw hl hf rfl
  generalize checkStage m (succeed (flipStage f (succeed (buildStage m s)))) = c at hrow hcol
  have hbit : c.locBit = f := by
    obtain ⟨_, _, hloc⟩ := loc_of_least (s := c) (r := f / 8) (c := f % 8) (by simp [hrow]) (by simp [hrow])
      (by simp [hcol]) (by simp [hcol])
    rw [hloc, Nat.div_add_mod]
  obtain ⟨_, _, _, hword, _⟩ := locWord_fields c
  exact ⟨hrow, hcol, (single_iff_singletons c).2 ⟨⟨_, hrow⟩, _, hcol⟩, hbit, hbit ▸ hword, rfl⟩

/-- Settles O39: every row changes in 8 bits and every column in `n`. -/
theorem everyBitFlippedFlagsNoRow : Obligations.EveryBitFlippedFlagsNoRow := by
  intro s m p hw hl hm hflip
  have hcode : State.CarriesCodeOf { succeed (buildStage m s) with payload := p } s m := ⟨rfl, rfl, rfl, rfl, rfl⟩
  obtain ⟨hlen, _, _⟩ := State.rows_of_valid hl
  refine ⟨_, _, execBuild_ok hl hm, hcode.exec_check hw hl hm, bitVec_ext fun i _ => ?row, colMask_ext fun k hk => ?col,
    rfl⟩
  case row =>
    rw [succeed_rowsyn, hcode.getLsbD_rowsyn_eq_ones hw hl, BitVec.getLsbD_zero]
    by_cases hi : i < s.rows
    · have hall : p.read i ^^^ s.payload.read i = 0xFF#8 := colMask_ext fun k hk => by
        rw [BitVec.getLsbD_xor, ← pbit_eq_read p i k hk, ← pbit_eq_read s.payload i k hk, hflip _ (by omega),
          Bool.not_xor_self]
        interval_cases k <;> rfl
      have heven : ones 0xFF#8 % 2 = 0 := rfl
      rw [hall, heven, Bool.and_eq_false_iff]
      exact .inr rfl
    · rw [decide_eq_false hi, Bool.false_and]
  case col =>
    have hall : (List.range s.rows).countP (fun i => pbit p (8 * i + k) != pbit s.payload (8 * i + k)) = s.rows := by
      rw [List.countP_eq_length.2, List.length_range]
      intro i hi
      have hi := List.mem_range.1 hi
      rw [hflip _ (by omega)]
      simp
    rw [succeed_colsyn, hcode.getLsbD_colsyn_eq_countP hk, hall]
    split
    case isTrue hodd =>
      rw [decide_eq_true hodd]
      interval_cases k <;> rfl
    case isFalse heven => rw [decide_eq_false heven, BitVec.getLsbD_zero]

/-- Settles O42: a LEN that CHECK accepts in another length has another code length; the same LEN is an unchanged unit. -/
theorem lengthChangeIsCaughtByCheck : Obligations.LengthChangeIsCaughtByCheck := by
  intro s m v hw hl hm
  obtain ⟨hlen, _, _⟩ := State.rows_of_valid hl
  obtain ⟨t, ht, herr⟩ := exec_err .check (writeRegister (succeed (buildStage m s)) .len v)
  refine ⟨_, t, execBuild_ok hl hm, ht, fun hbad => ?framing, fun hvalid hne => ?otherLength, fun heq => ?sameLength⟩
  case framing => rw [herr, resultCode, if_pos hbad]
  case otherLength =>
    have hpclen : (writeRegister (succeed (buildStage m s)) .len v).pclen.toNat ≠
        (writeRegister (succeed (buildStage m s)) .len v).rows + 8 := by
      intro heq
      have hbuilt : (writeRegister (succeed (buildStage m s)) .len v).pclen.toNat = s.rows + 8 := State.pclen_of_rows hw hl
      obtain ⟨hnew, _, _⟩ := State.rows_of_valid hvalid
      have hlens : (v.extractLsb' 0 12).toNat = s.len.toNat := hnew.trans (by omega)
      exact hne (BitVec.eq_of_toNat_eq hlens)
    cases (execCheck_codeLength hvalid hm hpclen).symm.trans ht
    rfl
  case sameLength =>
    have hcode : (writeRegister (succeed (buildStage m s)) .len v).CarriesCodeOf s m := ⟨rfl, heq, rfl, rfl, rfl⟩
    obtain ⟨hrow, hcol⟩ := hcode.syndrome_of_unchanged hw hl rfl
    cases (hcode.exec_check hw hl hm).symm.trans ht
    exact ⟨rfl, hrow, hcol⟩

end Sys2Proof.Machine

namespace Sys2Proof.Machine

/-! # What CORRECT, NOISE and RUN do to a transmitted unit (42_corrector.md, 41_channel.md, 43_control.md) -/

/-! ## The pairs -/

/-- The pairs of two ascending ranges are the equal ones. -/
theorem mem_zip_range {n k : Nat} {rc : Nat × Nat} :
    rc ∈ (List.range n).zip (List.range k) ↔ rc.1 = rc.2 ∧ rc.1 < n ∧ rc.2 < k := by
  obtain ⟨r, c⟩ := rc
  rw [List.mem_iff_getElem?]
  constructor
  · rintro ⟨j, hj⟩
    obtain ⟨hr, hc⟩ := List.getElem?_zip_eq_some.1 hj
    obtain ⟨hn, hjr⟩ := List.getElem?_eq_some_iff.1 hr
    obtain ⟨hk, hjc⟩ := List.getElem?_eq_some_iff.1 hc
    rw [List.getElem_range] at hjr hjc
    rw [List.length_range] at hn hk
    subst hjr hjc
    exact ⟨rfl, hn, hk⟩
  · rintro ⟨heq, hn, hk⟩
    obtain rfl : r = c := heq
    exact ⟨r, List.getElem?_zip_eq_some.2 ⟨List.getElem?_range hn, List.getElem?_range hk⟩⟩

/-- A flat index determines its pair. -/
theorem mem_map_flatIndex_iff {s : State} {f : Nat} : f ∈ s.pairs.map flatIndex ↔ (f / 8, f % 8) ∈ s.pairs := by
  rw [List.mem_map]
  constructor
  · rintro ⟨rc, hrc, rfl⟩
    have hcol : flatIndex rc % 8 = rc.2 := by
      have hdiv : flatIndex rc / 8 = rc.1 := flatIndex_div hrc
      have hflat : flatIndex rc = 8 * rc.1 + rc.2 := rfl
      omega
    rwa [flatIndex_div hrc, hcol]
  · exact fun hmem => ⟨_, hmem, Nat.div_add_mod f 8⟩

/-- A list of distinct numbers below `n` is counted by the members of `range n`. -/
theorem countP_mem_range {l : List Nat} {n : Nat} (hl : l.Nodup) (hlt : ∀ f ∈ l, f < n) :
    (List.range n).countP (fun f => decide (f ∈ l)) = l.length := by
  rw [List.countP_eq_length_filter]
  refine List.Perm.length_eq ((List.perm_ext_iff_of_nodup (List.nodup_range.filter _) hl).2 fun f => ?_)
  rw [List.mem_filter, List.mem_range, decide_eq_true_iff]
  exact and_iff_right_of_imp (hlt f)

/-- A current syndrome flags at most `n` rows (R40). -/
theorem State.SyndromeCurrent.nRowErr_le_rows {s : State} (hs : s.SyndromeCurrent) (hv : s.synvalid = true) :
    s.nRowErr ≤ s.rows := by
  have hsub : s.rowsList ⊆ List.range s.rows := fun r hr => List.mem_range.2 (hs.row_lt hv hr)
  simpa [State.nRowErr] using ((rowsList_nodup s).subperm hsub).length_le

/-! ## The flags of the other changes of 40_codec.md section 4 -/

/-- The two modes give every group opposite parities (R120). -/
theorem par_xor_par_of_ne {m m' : ParityMode} (h : m ≠ m') (bits : List Bool) : (par m' bits ^^ par m bits) = true := by
  rw [par_eq, par_eq]
  generalize xorReduce bits = x
  cases m <;> cases m'
  case even.odd | odd.even => cases x <;> rfl
  all_goals exact absurd rfl h

namespace State.CarriesCodeOf

variable {r s : State} {m m' : ParityMode}

/-- Two inverted bits of one row flag no row and their two columns (R131). -/
theorem lists_of_two_flips (h : r.CarriesCodeOf s m) (hw : s.wf = true) (hl : s.LenValid) {a c d : Nat} (ha : a < s.rows)
    (hcd : c < d) (hd : d < 8) (hp : r.payload = flipBit (flipBit s.payload (8 * a + c)) (8 * a + d)) :
    (checkStage m r).rowsList = [] ∧ (checkStage m r).colsList = [c, d] := by
  have hwp : s.payload.wf = true := State.wf_payload hw
  have hwc : (flipBit s.payload (8 * a + c)).wf = true := wf_flipBit hwp _
  have hrowc : (8 * a + c) / 8 = a := by omega
  have hrowd : (8 * a + d) / 8 = a := by omega
  have hcolc : (8 * a + c) % 8 = c := by omega
  have hcold : (8 * a + d) % 8 = d := by omega
  constructor
  · refine h.rowsList_eq_of_change hw hl (fun i => ?_) List.Pairwise.nil (mem_nil_iff_lt_and_false s.rows)
    rw [hp, rowParity_flipBit m hwc, rowParity_flipBit m hwp, hrowc, hrowd, Bool.xor_assoc, Bool.xor_self]
  · refine h.colsList_eq_of_change (d := fun k => decide (k = c) ^^ decide (k = d)) (fun k hk => ?_) (List.pairwise_pair.2 hcd)
      fun k => ?_
    · rw [hp, colParity_flipBit m hwc (by omega) hk, colParity_flipBit m hwp (by omega) hk, hcolc, hcold, Bool.xor_assoc]
    · by_cases hkc : k = c
      · simp [hkc]; omega
      · simp [hkc]; omega

/-- In the other mode every row below `n` and every column is flagged (R132). -/
theorem lists_of_other_mode (h : r.CarriesCodeOf s m) (hw : s.wf = true) (hl : s.LenValid) (hne : m ≠ m')
    (hp : r.payload = s.payload) :
    (checkStage m' r).rowsList = List.range s.rows ∧ (checkStage m' r).colsList = List.range 8 := by
  constructor
  · refine rowsList_checkStage_eq (d := fun _ => true) (h.maxRows_le hw) (h.lenValid hl) (fun i hi => ?_)
      List.pairwise_lt_range fun i => ?_
    · rw [h.getLsbD_rpar hw hl (hi.trans_eq h.rows_eq), hp]
      exact par_xor_par_of_ne hne _
    · rw [List.mem_range, h.rows_eq, and_iff_left rfl]
  · refine colsList_checkStage_eq (d := fun _ => true) (fun k hk => ?_) List.pairwise_lt_range fun k => ?_
    · rw [h.getLsbD_cpar hk, h.rows_eq, hp]
      exact par_xor_par_of_ne hne _
    · rw [List.mem_range, and_iff_left rfl]

/-- In the mode of the code and with an unchanged payload, a row's recomputed parity is the stored one. -/
theorem rowParity_xor_rpar (h : r.CarriesCodeOf s m) (hw : s.wf = true) (hl : s.LenValid) (hp : r.payload = s.payload)
    {i : Nat} (hi : i < r.rows) : (rowParity m r.payload i ^^ r.rpar.getLsbD i) = false := by
  rw [h.getLsbD_rpar hw hl (hi.trans_eq h.rows_eq), hp, Bool.xor_self]

/-- In the mode of the code and with an unchanged payload, a column's recomputed parity is the stored one. -/
theorem colParity_xor_cpar (h : r.CarriesCodeOf s m) (hp : r.payload = s.payload) {k : Nat} (hk : k < 8) :
    (colParity m r.payload r.rows k ^^ r.cpar.getLsbD (7 - k)) = false := by
  rw [h.getLsbD_cpar hk, h.rows_eq, hp, Bool.xor_self]

/-- A wrong RPAR bit flags its row alone. -/
theorem lists_of_rpar_flip (h : r.CarriesCodeOf s m) (hw : s.wf = true) (hl : s.LenValid) (hp : r.payload = s.payload)
    {a : Nat} (ha : a < s.rows) :
    (checkStage m { r with rpar := r.rpar ^^^ BitVec.twoPow 256 a }).rowsList = [a] ∧
      (checkStage m { r with rpar := r.rpar ^^^ BitVec.twoPow 256 a }).colsList = [] := by
  have h256 : a < 256 := ha.trans_le (State.rows_le_of_valid hw hl)
  have hrow (i : Nat) (hi : i < r.rows) :
      (rowParity m r.payload i ^^ (r.rpar ^^^ BitVec.twoPow 256 a).getLsbD i) = decide (i = a) := by
    rw [BitVec.getLsbD_xor, ← Bool.xor_assoc, h.rowParity_xor_rpar hw hl hp hi, Bool.false_xor, BitVec.getLsbD_twoPow,
      decide_eq_true h256, Bool.true_and, decide_eq_decide]
    exact eq_comm
  constructor
  · exact rowsList_checkStage_eq (r := { r with rpar := r.rpar ^^^ BitVec.twoPow 256 a }) (h.maxRows_le hw) (h.lenValid hl)
      hrow (List.pairwise_singleton ..) (mem_singleton_iff_lt_and_eq (ha.trans_eq h.rows_eq.symm))
  · exact colsList_checkStage_eq (r := { r with rpar := r.rpar ^^^ BitVec.twoPow 256 a })
      (fun k hk => h.colParity_xor_cpar hp hk) List.Pairwise.nil (mem_nil_iff_lt_and_false 8)

/-- A wrong CPAR bit flags its column alone. -/
theorem lists_of_cpar_flip (h : r.CarriesCodeOf s m) (hw : s.wf = true) (hl : s.LenValid) (hp : r.payload = s.payload)
    {a : Nat} (ha : a < 8) :
    (checkStage m { r with cpar := r.cpar ^^^ BitVec.twoPow 8 (7 - a) }).rowsList = [] ∧
      (checkStage m { r with cpar := r.cpar ^^^ BitVec.twoPow 8 (7 - a) }).colsList = [a] := by
  have hcol (k : Nat) (hk : k < 8) :
      (colParity m r.payload r.rows k ^^ (r.cpar ^^^ BitVec.twoPow 8 (7 - a)).getLsbD (7 - k)) = decide (k = a) := by
    have h8 : 7 - a < 8 := by omega
    rw [BitVec.getLsbD_xor, ← Bool.xor_assoc, h.colParity_xor_cpar hp hk, Bool.false_xor, BitVec.getLsbD_twoPow,
      decide_eq_true h8, Bool.true_and, decide_eq_decide]
    omega
  constructor
  · exact rowsList_checkStage_eq (r := { r with cpar := r.cpar ^^^ BitVec.twoPow 8 (7 - a) }) (h.maxRows_le hw)
      (h.lenValid hl) (fun i hi => h.rowParity_xor_rpar hw hl hp hi) List.Pairwise.nil (mem_nil_iff_lt_and_false r.rows)
  · exact colsList_checkStage_eq (r := { r with cpar := r.cpar ^^^ BitVec.twoPow 8 (7 - a) }) hcol
      (List.pairwise_singleton ..) (mem_singleton_iff_lt_and_eq ha)

end State.CarriesCodeOf

/-! ## The payloads NOISE can produce -/

/-- With NOISE_P = 0 no draw is below it (R153). -/
theorem transmitStage_payload_of_zero {s : State} (hp : s.payload.wf = true) (h : s.noiseP = 0#16) :
    (transmitStage s).payload = s.payload :=
  Memory.ext_pbit (wf_transmit _ _ _ hp _) hp fun f => by
    have hnone : ¬ (s.noise.answer f).toNat < (0#16).toNat := Nat.not_lt_zero _
    rw [pbit_transmitStage hp, h, decide_eq_false hnone, Bool.and_false, Bool.xor_false]

/-- With exactly one draw below NOISE_P, one bit is inverted (R151). -/
theorem transmitStage_payload_of_one {s : State} (hp : s.payload.wf = true) {f : Nat} (hf : f < s.len.toNat)
    (hlow : s.noise.answer f < s.noiseP) (hhigh : ∀ g, g < s.len.toNat → g ≠ f → ¬ s.noise.answer g < s.noiseP) :
    (transmitStage s).payload = flipBit s.payload f := by
  refine Memory.ext_pbit (wf_transmit _ _ _ hp _) (wf_flipBit hp f) fun g => ?_
  rw [pbit_transmitStage hp, pbit_flipBit hp, ← Bool.decide_and]
  congr 1
  refine decide_eq_decide.2 ⟨fun ⟨hg, hdraw⟩ => ?_, ?_⟩
  · by_contra hne
    exact hhigh g hg hne hdraw
  · rintro rfl
    exact ⟨hf, hlow⟩

/-- Draws that turn the first `n` bits of `m` into those of `p`: the lowest draw where they differ, the highest where they
agree. -/
def drawsTo (m p : Memory) (n : Nat) : Noise where
  queue := (List.range n).map fun f => if pbit p f = pbit m f then 0xFFFF#16 else 0x0000#16
  drawn := 0

theorem answer_drawsTo (m p : Memory) {n f : Nat} (hf : f < n) :
    (drawsTo m p n).answer f = if pbit p f = pbit m f then 0xFFFF#16 else 0x0000#16 := by
  simp [Noise.answer, drawsTo, hf]

/-- For a positive NOISE_P, a draw of `drawsTo` inverts exactly the bits that differ (R153). -/
theorem answer_drawsTo_lt_iff (m p : Memory) {n f : Nat} (hf : f < n) {P : BitVec 16} (hP : P ≠ 0#16) :
    ((drawsTo m p n).answer f).toNat < P.toNat ↔ pbit p f ≠ pbit m f := by
  have hlt : P.toNat < 2 ^ 16 := P.isLt
  have hpos : 0 < P.toNat := Nat.pos_of_ne_zero fun h0 => hP (BitVec.eq_of_toNat_eq h0)
  rw [answer_drawsTo m p hf]
  by_cases h : pbit p f = pbit m f
  · have hmax : (0xFFFF#16).toNat = 2 ^ 16 - 1 := rfl
    rw [if_pos h, hmax]
    exact iff_of_false (by omega) (not_not.2 h)
  · rw [if_neg h]
    exact iff_of_true hpos h

/-- Inverting a bit where it differs from another gives the other. -/
theorem xor_decide_ne (x y : Bool) : (y ^^ decide (x ≠ y)) = x := by cases x <;> cases y <;> rfl

/-- Those draws make NOISE produce `p`, if `p` has the rows that NOISE does not reach (R154). -/
theorem transmitStage_drawsTo {s : State} (hp : s.payload.wf = true) (hl : s.LenValid) (hP : s.noiseP ≠ 0#16) {p : Memory}
    (hwp : p.wf = true) (hrows : ∀ a, s.rows ≤ a → p.read a = s.payload.read a) :
    (transmitStage { s with noise := drawsTo s.payload p s.len.toNat }).payload = p := by
  refine Memory.ext_pbit (wf_transmit _ _ _ hp _) hwp fun f => ?_
  rw [pbit_transmitStage (s := { s with noise := drawsTo s.payload p s.len.toNat }) hp]
  by_cases hf : f < s.len.toNat
  · rw [decide_eq_true hf, Bool.true_and, decide_eq_decide.2 (answer_drawsTo_lt_iff s.payload p hf hP)]
    exact xor_decide_ne _ _
  · obtain ⟨hlen, _, _⟩ := State.rows_of_valid hl
    rw [decide_eq_false hf, Bool.false_and, Bool.xor_false]
    exact (pbit_eq_of_read (hrows (f / 8) (by omega))).symm

/-! ## The statements -/

/-- Settles O45. -/
theorem flipTwiceRestoresThePayload : Obligations.FlipTwiceRestoresThePayload := by
  intro s f hw hl hf
  exact ⟨_, _, execFlip_ok hl hf, execFlip_ok (s := succeed (flipStage f s)) hl hf,
    flipBit_flipBit (State.wf_payload hw) f, rfl⟩

/-- Settles O38: CHECK locates the bit that FLIP inverted, and CORRECT inverts it back. -/
theorem singleFlipIsCorrected : Obligations.SingleFlipIsCorrected := by
  intro s m f hw hl hm hf
  have hcode : (succeed (flipStage f (succeed (buildStage m s)))).CarriesCodeOf s m := ⟨rfl, rfl, rfl, rfl, rfl⟩
  obtain ⟨hpayload, hncorr⟩ := correctStage_restores hcode hw hl hf rfl
  exact ⟨_, _, _, _, execBuild_ok hl hm, execFlip_ok (s := succeed (buildStage m s)) hl hf, hcode.exec_check hw hl hm,
    execCorrect_after_succeed (checkStage_synvalid m _), hpayload, hncorr, rfl, rfl⟩

/-- Settles O40: the row's parity changes twice, each of the two columns' once. -/
theorem twoFlipsInOneRowStayUncorrected : Obligations.TwoFlipsInOneRowStayUncorrected := by
  intro s m r c d hw hl hm hr hcd hd
  obtain ⟨hlen, _, _⟩ := State.rows_of_valid hl
  have hc : 8 * r + c < s.len.toNat := by omega
  have hd' : 8 * r + d < s.len.toNat := by omega
  have hcode : State.CarriesCodeOf
      (succeed (flipStage (8 * r + d) (succeed (flipStage (8 * r + c) (succeed (buildStage m s)))))) s m :=
    ⟨rfl, rfl, rfl, rfl, rfl⟩
  obtain ⟨hrow, hcol⟩ := hcode.lists_of_two_flips hw hl hr hcd hd rfl
  obtain ⟨hpayload, hncorr⟩ := correctStage_of_no_pair (.inl hrow)
  exact ⟨_, _, _, _, _, execBuild_ok hl hm, execFlip_ok (s := succeed (buildStage m s)) hl hc,
    execFlip_ok (s := succeed (flipStage (8 * r + c) (succeed (buildStage m s)))) hl hd', hcode.exec_check hw hl hm,
    hrow, hcol, execCorrect_after_succeed (checkStage_synvalid m _), hpayload, hncorr, rfl⟩

/-- Settles O41: every parity differs between the modes, and the pairs of all rows and all columns are the equal ones. -/
theorem modeMismatchFlagsEverything : Obligations.ModeMismatchFlagsEverything := by
  intro s v m m' hw hl hm hm' hne
  have hcode : (writeRegister (succeed (buildStage m s)) .ctrl v).CarriesCodeOf s m := ⟨rfl, rfl, rfl, rfl, rfl⟩
  obtain ⟨hrow, hcol⟩ := hcode.lists_of_other_mode hw hl hne rfl
  refine ⟨_, _, _, execBuild_ok hl hm, hcode.exec_check hw hl hm', hrow, hcol, rfl,
    execCorrect_after_succeed (checkStage_synvalid m' _), ?count, fun f => ?bits⟩
  case count =>
    rw [succeed_ncorr, toNat_correctStage_ncorr, State.npairs, State.nRowErr, State.nColErr, hrow, hcol, List.length_range,
      List.length_range]
  case bits =>
    have hp : (checkStage m' (writeRegister (succeed (buildStage m s)) .ctrl v)).payload.wf = true :=
      State.wf_payload (s := s) hw
    rw [succeed_payload, pbit_correctStage hp]
    refine congrArg (pbit s.payload f ^^ ·) (decide_eq_decide.2 ?_)
    rw [mem_map_flatIndex_iff, State.pairs, hrow, hcol, mem_zip_range]
    exact ⟨fun ⟨heq, hlt, _⟩ => ⟨heq, hlt⟩, fun ⟨heq, hlt⟩ => ⟨heq, hlt, Nat.mod_lt f (by omega)⟩⟩

/-- Settles O43: without noise no bit changes; with noise any bit below LEN may, as its draw says. -/
theorem noiseOutcomesAreExactlyTheFlips : Obligations.NoiseOutcomesAreExactlyTheFlips := by
  intro s hw hl
  have hp : s.payload.wf = true := State.wf_payload hw
  refine ⟨fun hzero ν => ?noNoise, fun hP p => ⟨?possible, ?reached⟩⟩
  case noNoise =>
    exact ⟨_, execNoise_ok (s := { s with noise := ν }) hl,
      transmitStage_payload_of_zero (s := { s with noise := ν }) hp hzero⟩
  case possible =>
    rintro ⟨ν, t, h, rfl⟩
    cases (execNoise_ok (s := { s with noise := ν }) hl).symm.trans h
    exact ⟨wf_transmit _ _ _ hp _, fun a ha => read_transmitStage_of_rows_le (s := { s with noise := ν }) hp hl ha⟩
  case reached =>
    rintro ⟨hwp, hrows⟩
    exact ⟨_, _, execNoise_ok (s := { s with noise := drawsTo s.payload p s.len.toNat }) hl,
      transmitStage_drawsTo hp hl hP hwp hrows⟩

/-- Settles O44: RUN's CHECK sees the payload that BUILD saw, with no bit or one bit inverted. -/
theorem runRestoresUpToOneFlip : Obligations.RunRestoresUpToOneFlip := by
  intro s m hw hl hm
  have hp : s.payload.wf = true := State.wf_payload hw
  have hcode : (transmitStage (buildStage m s)).CarriesCodeOf s m := ⟨rfl, rfl, rfl, rfl, rfl⟩
  refine ⟨fun hzero => ?noNoise, fun f hf hlow hhigh => ?oneFlip⟩
  case noNoise =>
    have hsame : (transmitStage (buildStage m s)).payload = s.payload :=
      transmitStage_payload_of_zero (s := buildStage m s) hp hzero
    obtain ⟨hrow, hcol⟩ := hcode.syndrome_of_unchanged hw hl hsame
    obtain ⟨hpayload, hncorr⟩ := correctStage_of_no_pair (.inl (rowsList_of_rowsyn_zero hrow))
    exact ⟨_, execRun_ok hl hm, hpayload.trans hsame, hrow, hcol, hncorr, rfl⟩
  case oneFlip =>
    have hflip : (transmitStage (buildStage m s)).payload = flipBit s.payload f :=
      transmitStage_payload_of_one (s := buildStage m s) hp hf hlow hhigh
    obtain ⟨hrow, hcol⟩ := hcode.lists_of_flip hw hl hf hflip
    obtain ⟨hpayload, hncorr⟩ := correctStage_restores hcode hw hl hf hflip
    exact ⟨_, execRun_ok hl hm, hpayload, hrow, hcol, hncorr, rfl⟩

/-- Settles O47: CORRECT inverts the pairs' distinct flat indices, and there are `npairs` of them. -/
theorem correctFlipsExactlyNpairsBits : Obligations.CorrectFlipsExactlyNpairsBits := by
  intro s hw hs hv
  have hlt : ∀ f ∈ s.pairs.map flatIndex, f < s.len.toNat := fun f hf => by
    obtain ⟨rc, hrc, rfl⟩ := List.mem_map.1 hf
    exact hs.flatIndex_lt_len hv hrc
  have hcount : s.npairs ≤ min s.rows 8 := min_le_min (hs.nRowErr_le_rows hv) (nColErr_le s)
  refine ⟨flatIndices_nodup s, hcount, fun rc hrc => hs.flatIndex_lt_len hv hrc, _, execCorrect_ok hv, ?changed⟩
  case changed =>
    have hchanged : (fun f => pbit (correctStage s).payload f != pbit s.payload f) =
        fun f => decide (f ∈ s.pairs.map flatIndex) := by
      funext f
      rw [pbit_correctStage (State.wf_payload hw)]
      cases pbit s.payload f <;> cases decide (f ∈ s.pairs.map flatIndex) <;> rfl
    rw [succeed_payload, hchanged, countP_mem_range (flatIndices_nodup s) hlt, List.length_map, pairs_length]

/-- Settles O48: the wrong bit alone differs from its parity, and with one empty list there is no pair. -/
theorem parityBitErrorIsNotCorrected : Obligations.ParityBitErrorIsNotCorrected := by
  intro s m hw hl hm
  have hcode : (succeed (buildStage m s)).CarriesCodeOf s m := ⟨rfl, rfl, rfl, rfl, rfl⟩
  have hpclen : (succeed (buildStage m s)).pclen.toNat = s.rows + 8 := State.pclen_of_rows hw hl
  refine ⟨fun r hr => ?rpar, fun k hk => ?cpar⟩
  case rpar =>
    obtain ⟨hrow, hcol⟩ := hcode.lists_of_rpar_flip hw hl rfl hr
    obtain ⟨hpayload, hncorr⟩ := correctStage_of_no_pair (.inr hcol)
    exact ⟨_, _, _, execBuild_ok hl hm, execCheck_ok (s := { succeed (buildStage m s) with rpar := _ }) hl hm hpclen, hrow,
      hcol, execCorrect_after_succeed (checkStage_synvalid m _), hpayload, hncorr⟩
  case cpar =>
    obtain ⟨hrow, hcol⟩ := hcode.lists_of_cpar_flip hw hl rfl hk
    obtain ⟨hpayload, hncorr⟩ := correctStage_of_no_pair (.inl hrow)
    exact ⟨_, _, _, execBuild_ok hl hm, execCheck_ok (s := { succeed (buildStage m s) with cpar := _ }) hl hm hpclen, hrow,
      hcol, execCorrect_after_succeed (checkStage_synvalid m _), hpayload, hncorr⟩

end Sys2Proof.Machine
